-- ==== Sys2Proof/Word.lean ====
section
/-! DEFINITION. The bit-vector types of the CORE (spec/00_scope.md R5, R7): names for widths and nothing else. -/

namespace Sys2Proof

/-- An 8-bit value: a V register, a timer, a memory byte (R5). -/
abbrev Byte := BitVec 8

/-- A 16-bit value: I, PC, a stack entry, the keypad mask (R5). -/
abbrev Word := BitVec 16

/-- A 16-bit instruction word (R57). -/
abbrev Opcode := BitVec 16

/-- A 4-bit register index, the fields `x` and `y` of an opcode (R15, R58). -/
abbrev RegIx := BitVec 4

/-- A 12-bit address literal, the field `nnn` of an opcode (R58). -/
abbrev Addr := BitVec 12

end Sys2Proof
end

