-- ==== Sys2Proof/Syntax.lean ====
section
/-! DEFINITION. The instructions of the CORE: one constructor per row of spec/opcode_table.json, 34 defined instructions and
the no-op of every other opcode (spec/30_encoding.md R64, R65). -/

namespace Sys2Proof

/-- A decoded instruction (R36). Fields have the widths of R58.

Fields that the instruction ignores are kept (`n` of `skipEqReg` and `skipNeReg`, R63; `y` of `regShr` and `regShl`,
R99 and R101; the whole opcode of `nop`, R65), so that no bit of an opcode is lost by decoding it. -/
inductive Instr where
  /-- `00E0` clear-screen (R109). -/
  | clearScreen
  /-- `00EE` return (R82). -/
  | ret
  /-- `1nnn` jump (R83). -/
  | jump (nnn : Addr)
  /-- `2nnn` call (R84). -/
  | call (nnn : Addr)
  /-- `3xnn` skip-eq-imm (R85). -/
  | skipEqImm (x : RegIx) (nn : Byte)
  /-- `4xnn` skip-ne-imm (R86). -/
  | skipNeImm (x : RegIx) (nn : Byte)
  /-- `5xyn` skip-eq-reg (R87); `n` is ignored (R63). -/
  | skipEqReg (x y : RegIx) (n : BitVec 4)
  /-- `6xnn` load-imm (R91). -/
  | loadImm (x : RegIx) (nn : Byte)
  /-- `7xnn` add-imm (R92). -/
  | addImm (x : RegIx) (nn : Byte)
  /-- `8xy0` reg-mov (R93). -/
  | regMov (x y : RegIx)
  /-- `8xy1` reg-or (R94). -/
  | regOr (x y : RegIx)
  /-- `8xy2` reg-and (R95). -/
  | regAnd (x y : RegIx)
  /-- `8xy3` reg-xor (R96). -/
  | regXor (x y : RegIx)
  /-- `8xy4` reg-add (R97). -/
  | regAdd (x y : RegIx)
  /-- `8xy5` reg-sub (R98). -/
  | regSub (x y : RegIx)
  /-- `8xy6` reg-shr (R99); `y` is encoded but not read. -/
  | regShr (x y : RegIx)
  /-- `8xy7` reg-subn (R100). -/
  | regSubn (x y : RegIx)
  /-- `8xyE` reg-shl (R101); `y` is encoded but not read. -/
  | regShl (x y : RegIx)
  /-- `9xyn` skip-ne-reg (R88); `n` is ignored (R63). -/
  | skipNeReg (x y : RegIx) (n : BitVec 4)
  /-- `Annn` load-index (R103). -/
  | loadIndex (nnn : Addr)
  /-- `Bnnn` jump-offset (R89). -/
  | jumpOffset (nnn : Addr)
  /-- `Cxnn` random (R102). -/
  | random (x : RegIx) (nn : Byte)
  /-- `Dxyn` draw-sprite (R110). -/
  | drawSprite (x y : RegIx) (n : BitVec 4)
  /-- `Ex9E` skip-key-down (R112). -/
  | skipKeyDown (x : RegIx)
  /-- `ExA1` skip-key-up (R113). -/
  | skipKeyUp (x : RegIx)
  /-- `Fx07` get-delay (R114). -/
  | getDelay (x : RegIx)
  /-- `Fx0A` wait-key (R115). -/
  | waitKey (x : RegIx)
  /-- `Fx15` set-delay (R116). -/
  | setDelay (x : RegIx)
  /-- `Fx18` set-sound (R117). -/
  | setSound (x : RegIx)
  /-- `Fx1E` add-index (R104). -/
  | addIndex (x : RegIx)
  /-- `Fx29` font-char (R105). -/
  | fontChar (x : RegIx)
  /-- `Fx33` bcd (R106). -/
  | bcd (x : RegIx)
  /-- `Fx55` store-regs (R107). -/
  | storeRegs (x : RegIx)
  /-- `Fx65` load-regs (R108). -/
  | loadRegs (x : RegIx)
  /-- Any other opcode: a defined no-op (R65, R80). -/
  | nop (op : Opcode)
deriving DecidableEq, Repr

end Sys2Proof
end

