-- ==== Sys2Proof/WellFormed.lean ====
section
/-! DEFINITION. When an instruction is well-formed. The widths of the fields are in the types, so the one check left is on the
no-op: its opcode must be one of the undefined opcodes of spec/30_encoding.md R65. -/

namespace Sys2Proof

/-- The low nibbles of category 8 that select no operation (R65: 8xy8-8xyD and 8xyF). -/
def undefinedRegOps : List Nat := [0x8, 0x9, 0xA, 0xB, 0xC, 0xD, 0xF]

/-- The low bytes that category E defines (R62). -/
def keySelectors : List Nat := [0x9E, 0xA1]

/-- The low bytes that category F defines (R62). -/
def miscSelectors : List Nat := [0x07, 0x0A, 0x15, 0x18, 0x1E, 0x29, 0x33, 0x55, 0x65]

/-- Whether an opcode is undefined, by the list of R65, category by category. -/
def undefinedOpcode (op : Opcode) : Bool :=
  match op.toNat / 0x1000 with
  | 0x0 => op != 0x00E0#16 && op != 0x00EE#16
  | 0x8 => undefinedRegOps.contains (op.toNat % 0x10)
  | 0xE => !keySelectors.contains (op.toNat % 0x100)
  | 0xF => !miscSelectors.contains (op.toNat % 0x100)
  | _ => false

/-- An instruction is well-formed when, if it is the no-op, its opcode is undefined (R65). -/
def Instr.wf : Instr → Bool
  | .nop op => undefinedOpcode op
  | _ => true

end Sys2Proof
end

