-- ==== Sys2Proof/Decode.lean ====
section
/-! DEFINITION. Decoding and encoding: the fields of an opcode (spec/30_encoding.md R58), the decode procedure of R72, bytes in
big-endian order (spec/20_memory.md R45), and the encoder of the same tables (R59, R64). -/

namespace Sys2Proof

/-! ## The fields of an opcode (R58) -/

/-- `c`, the top nibble: the category. -/
def opC (op : Opcode) : BitVec 4 := op.extractLsb' 12 4

/-- `x`, the second nibble: a register index. -/
def opX (op : Opcode) : RegIx := op.extractLsb' 8 4

/-- `y`, the third nibble: a register index. -/
def opY (op : Opcode) : RegIx := op.extractLsb' 4 4

/-- `n`, the low nibble. -/
def opN (op : Opcode) : BitVec 4 := op.extractLsb' 0 4

/-- `nn`, the low byte. -/
def opNN (op : Opcode) : Byte := op.extractLsb' 0 8

/-- `nnn`, the low 12 bits. -/
def opNNN (op : Opcode) : Addr := op.extractLsb' 0 12

/-! ## Decode (R72) -/

/-- Category 0 selects on all 12 low bits (R62). -/
def decodeZero (op : Opcode) : Instr :=
  if opNNN op = 0x0E0#12 then .clearScreen
  else if opNNN op = 0x0EE#12 then .ret
  else .nop op

/-- Category 8 selects on the low nibble (R62). -/
def decodeRegOp (op : Opcode) : Instr :=
  match (opN op).toNat with
  | 0x0 => .regMov (opX op) (opY op)
  | 0x1 => .regOr (opX op) (opY op)
  | 0x2 => .regAnd (opX op) (opY op)
  | 0x3 => .regXor (opX op) (opY op)
  | 0x4 => .regAdd (opX op) (opY op)
  | 0x5 => .regSub (opX op) (opY op)
  | 0x6 => .regShr (opX op) (opY op)
  | 0x7 => .regSubn (opX op) (opY op)
  | 0xE => .regShl (opX op) (opY op)
  | _ => .nop op

/-- Category E selects on the low byte (R62). -/
def decodeKeyOp (op : Opcode) : Instr :=
  match (opNN op).toNat with
  | 0x9E => .skipKeyDown (opX op)
  | 0xA1 => .skipKeyUp (opX op)
  | _ => .nop op

/-- Category F selects on the low byte (R62). -/
def decodeMisc (op : Opcode) : Instr :=
  match (opNN op).toNat with
  | 0x07 => .getDelay (opX op)
  | 0x0A => .waitKey (opX op)
  | 0x15 => .setDelay (opX op)
  | 0x18 => .setSound (opX op)
  | 0x1E => .addIndex (opX op)
  | 0x29 => .fontChar (opX op)
  | 0x33 => .bcd (opX op)
  | 0x55 => .storeRegs (opX op)
  | 0x65 => .loadRegs (opX op)
  | _ => .nop op

/-- Decode one opcode: a total function, with no failure (R58, R72). The category values are R61's (log 7). -/
def decodeOpcode (op : Opcode) : Instr :=
  match (opC op).toNat with
  | 0x0 => decodeZero op
  | 0x1 => .jump (opNNN op)
  | 0x2 => .call (opNNN op)
  | 0x3 => .skipEqImm (opX op) (opNN op)
  | 0x4 => .skipNeImm (opX op) (opNN op)
  | 0x5 => .skipEqReg (opX op) (opY op) (opN op)
  | 0x6 => .loadImm (opX op) (opNN op)
  | 0x7 => .addImm (opX op) (opNN op)
  | 0x8 => decodeRegOp op
  | 0x9 => .skipNeReg (opX op) (opY op) (opN op)
  | 0xA => .loadIndex (opNNN op)
  | 0xB => .jumpOffset (opNNN op)
  | 0xC => .random (opX op) (opNN op)
  | 0xD => .drawSprite (opX op) (opY op) (opN op)
  | 0xE => decodeKeyOp op
  | _ => decodeMisc op

/-! ## Bytes (R45, R57) -/

/-- Two bytes make an opcode, the first in the high bits (R45). -/
def opcodeOfBytes (hi lo : Byte) : Opcode := hi ++ lo

/-- The byte of an opcode stored at the lower address (R45). -/
def opcodeHi (op : Opcode) : Byte := op.extractLsb' 8 8

/-- The byte of an opcode stored at the higher address (R45). -/
def opcodeLo (op : Opcode) : Byte := op.extractLsb' 0 8

/-- Why a byte sequence holds no instruction. -/
inductive DecodeError where
  /-- Fewer than two bytes are left (R57: a decoder always consumes two). -/
  | truncated
deriving DecidableEq, Repr

/-- Decode the instruction at the front of a byte sequence, and give the rest. Every two bytes decode (R58). -/
def decode : List Byte → Except DecodeError (Instr × List Byte)
  | hi :: lo :: rest => .ok (decodeOpcode (opcodeOfBytes hi lo), rest)
  | _ => .error .truncated

/-! ## Encode (R59, R64) -/

/-- Format A: category and 12-bit address. -/
def packA (c : BitVec 4) (nnn : Addr) : Opcode := c ++ nnn

/-- Formats XK and XS: category, register, low byte. -/
def packXK (c : BitVec 4) (x : RegIx) (nn : Byte) : Opcode := c ++ x ++ nn

/-- Formats XY and XYN: category, two registers, low nibble. -/
def packXY (c : BitVec 4) (x y : RegIx) (n : BitVec 4) : Opcode := c ++ x ++ y ++ n

/-- The opcode of an instruction, by its pattern in R64. -/
def encode : Instr → Opcode
  | .clearScreen => 0x00E0#16
  | .ret => 0x00EE#16
  | .jump nnn => packA 0x1#4 nnn
  | .call nnn => packA 0x2#4 nnn
  | .skipEqImm x nn => packXK 0x3#4 x nn
  | .skipNeImm x nn => packXK 0x4#4 x nn
  | .skipEqReg x y n => packXY 0x5#4 x y n
  | .loadImm x nn => packXK 0x6#4 x nn
  | .addImm x nn => packXK 0x7#4 x nn
  | .regMov x y => packXY 0x8#4 x y 0x0#4
  | .regOr x y => packXY 0x8#4 x y 0x1#4
  | .regAnd x y => packXY 0x8#4 x y 0x2#4
  | .regXor x y => packXY 0x8#4 x y 0x3#4
  | .regAdd x y => packXY 0x8#4 x y 0x4#4
  | .regSub x y => packXY 0x8#4 x y 0x5#4
  | .regShr x y => packXY 0x8#4 x y 0x6#4
  | .regSubn x y => packXY 0x8#4 x y 0x7#4
  | .regShl x y => packXY 0x8#4 x y 0xE#4
  | .skipNeReg x y n => packXY 0x9#4 x y n
  | .loadIndex nnn => packA 0xA#4 nnn
  | .jumpOffset nnn => packA 0xB#4 nnn
  | .random x nn => packXK 0xC#4 x nn
  | .drawSprite x y n => packXY 0xD#4 x y n
  | .skipKeyDown x => packXK 0xE#4 x 0x9E#8
  | .skipKeyUp x => packXK 0xE#4 x 0xA1#8
  | .getDelay x => packXK 0xF#4 x 0x07#8
  | .waitKey x => packXK 0xF#4 x 0x0A#8
  | .setDelay x => packXK 0xF#4 x 0x15#8
  | .setSound x => packXK 0xF#4 x 0x18#8
  | .addIndex x => packXK 0xF#4 x 0x1E#8
  | .fontChar x => packXK 0xF#4 x 0x29#8
  | .bcd x => packXK 0xF#4 x 0x33#8
  | .storeRegs x => packXK 0xF#4 x 0x55#8
  | .loadRegs x => packXK 0xF#4 x 0x65#8
  | .nop op => op

/-- The two bytes of an instruction, in memory order (R45). -/
def encodeBytes (i : Instr) : List Byte := [opcodeHi (encode i), opcodeLo (encode i)]

/-! ## The opcode table's numbering -/

/-- An instruction word given as a number whose bit 0 is the opcode's least significant bit, `nbits` of it given and the
opcode bits above them zero. -/
def opcodeOfTable (nbits w : Nat) : Opcode := BitVec.ofNat 16 (w % 2 ^ nbits)

/-- What the decoder reads from the two bytes of a table word; a word wider than an opcode is no instruction (R57). -/
def decodeTableWord (nbits w : Nat) : Option Instr :=
  if nbits ≤ 16 then
    match decode [opcodeHi (opcodeOfTable nbits w), opcodeLo (opcodeOfTable nbits w)] with
    | .ok (i, _) => some i
    | .error _ => none
  else none

end Sys2Proof
end

