-- ==== Sys2Proof/Config.lean ====
section
/-! DEFINITION. What an implementation of the CORE fixes and the spec leaves open (spec/00_scope.md R6), and the free values.
An `opaque` constant here has no body: nothing can be proved of its value, so what is proved holds for every value. -/

namespace Sys2Proof

/-- `FONT_BASE`, the address of glyph 0 (R6, decision D2). The type carries the one constraint the spec gives,
`FONT_BASE + 80 <= 0x200`: a value is at most 432. DESIGN CHOICE (log 1); safe. -/
opaque Config.fontBase : Fin 433

/-- `FONT_DATA`, the 80 glyph bytes (R6, decision D3). DESIGN CHOICE (log 2); safe. -/
opaque Config.fontByte : Fin 80 → Byte

/-- The bytes that the successive executions of `Cxnn` draw (R6, R102, decision D8): nothing constrains them.
DESIGN CHOICE (log 3). -/
opaque Config.randomByte : Nat → Byte

/-- Free bytes: what an execute error leaves in the registers and memory bytes its instruction may write (R137).
DESIGN CHOICE (log 5). -/
opaque Config.freeByte : Nat → Byte

/-- Free cells: what a `Dxyn` that raises an error leaves in the display cells under its sprite (R137).
DESIGN CHOICE (log 5). -/
opaque Config.freeCell : Nat → Bool

/-- `DRAW_COORD_LATCH` (decision D11): whether `Dxyn` reads its coordinates before it clears VF. The spec's value is true
(R110). DESIGN CHOICE (log 6); unsafe where x or y is F. -/
def Config.drawCoordLatch : Bool := true

/-- `PROGRAM_BASE` (R5). -/
abbrev Config.programBase : Nat := 0x200

/-- `MAX_PROGRAM` (R5): 4096 - 0x200 bytes. -/
abbrev Config.maxProgram : Nat := 3584

end Sys2Proof
end

