-- ==== Sys2Proof/Machine/State.lean ====
section
/-! DEFINITION. The state of the CORE as spec/10_state.md gives it, its reset value (spec/70_reset_and_hazards.md R152), and
the reasons a step can stop. -/

namespace Sys2Proof.Machine

/-- The runtime errors a step can return (spec/60_exceptions.md R133, R134). -/
inductive RuntimeError where
  /-- An access above 0xFFF: a fetch, Dxyn, Fx33, Fx55 or Fx65. -/
  | memoryAccessViolation
  /-- 2nnn with SP = 16. -/
  | stackOverflow
  /-- 00EE with SP = 0. -/
  | stackUnderflow
deriving DecidableEq, Repr

/-- The numeric code of a runtime error: a label of the spec's own (R134, decision D7). -/
def RuntimeError.code : RuntimeError → Nat
  | .memoryAccessViolation => 1
  | .stackOverflow => 2
  | .stackUnderflow => 3

/-- Memory: the bytes that differ from the reset contents, as (address, byte) pairs in strictly rising address order.
An unlisted address reads as its reset byte (R32, log 18). -/
abbrev Memory := List Host.Cell

/-- The framebuffer, 32 rows of 64 one-bit cells: bit X of row Y is the cell at column X and row Y, which R31 numbers
`DISPLAY[Y * 64 + X]`. -/
abbrev Display := Vector (BitVec 64) 32

/-- Everything the spec gives the CORE (spec/10_state.md), and one counter of the model's own. -/
structure State where
  /-- V0..VF (R15). -/
  v : Vector Byte 16
  /-- I, the index register (R24). -/
  i : Word
  /-- PC (R20). -/
  pc : Word
  /-- SP, the number of occupied stack entries, 0..16 (R25). -/
  sp : Fin 17
  /-- STACK[0..15] (R30). -/
  stack : Vector Word 16
  /-- DT, the delay timer (R26). -/
  dt : Byte
  /-- ST, the sound timer (R27). -/
  st : Byte
  /-- KEYS: bit k is 1 while key k is held (R28). -/
  keys : Word
  /-- DISPLAY[0..2047] (R31). -/
  display : Display
  /-- MEM[0..4095] (R32, R39). -/
  mem : Memory
  /-- FAULT: the runtime error a step raised, if one did (R29). -/
  fault : Option RuntimeError
  /-- The RNG state (R37): how many bytes of the unconstrained sequence `Config.randomByte` have been drawn.
  DESIGN CHOICE (log 3). -/
  rng : Nat
  /-- The model's own: how many free values have been used for the write set of an execute error (R137).
  DESIGN CHOICE (log 5). -/
  free : Nat
deriving DecidableEq, Repr

/-- The machine right after construction (R152): all zero but PC = 0x200 and the font, which unlisted memory holds.
`rng` and `free` start at 0 (DESIGN CHOICE, logs 3 and 5). -/
def State.reset : State where
  v := Vector.replicate 16 0
  i := 0
  pc := 0x200
  sp := 0
  stack := Vector.replicate 16 0
  dt := 0
  st := 0
  keys := 0
  display := Vector.replicate 32 0
  mem := []
  fault := none
  rng := 0
  free := 0

/-- Why a step gives no next state. -/
inductive Fault where
  /-- Raised by `step` on a CORE whose FAULT register holds `e`: a halted CORE has no transition (R139). Safe: the model
  stops where the spec gives no next state. A runtime error ITSELF is no fault of the model: it is a next state with FAULT
  set (R136). -/
  | halted (e : RuntimeError)
deriving DecidableEq, Repr

/-- What the model gives no meaning. -/
inductive Refusal where
  /-- Raised by an arm of `exec` for an instruction that has no meaning yet. Safe: nothing can be proved of it. -/
  | notModelled (mnemonic : String)
  /-- Raised by the host port, never by a step: a `load` after the first `step` (spec/46_host_interface.md R124,
  decision D15: "refused by the model"). Safe: nothing can be proved of it. -/
  | loadAfterStep
deriving DecidableEq, Repr

end Sys2Proof.Machine
end

