-- ==== Sys2Proof/Machine/Operands.lean ====
section
/-! DEFINITION. The operand forms: register operands, the key index, the I-relative effective address and its range check, the
glyph address, and the draw coordinates. -/

namespace Sys2Proof.Machine

/-- `V[x]`, the read of register x (spec/00_scope.md R9). -/
def getV (s : State) (x : RegIx) : Byte := s.v[x.toNat]'x.isLt

/-- The key index of Ex9E and ExA1: `V[x] AND 0xF` (spec/45_timers_input.md R112, R113). -/
def keyIndex (s : State) (x : RegIx) : Nat := (getV s x &&& 0xF#8).toNat

/-- Whether key k is held: `bit(KEYS, k)` (spec/10_state.md R28). -/
def keyHeld (s : State) (k : Nat) : Bool := s.keys.getLsbD k

/-- `min { k in 0..15 | bit(keys, k) = 1 }`, scanning from 0x0 upward (R115); meant for a mask that is not 0. -/
def lowestKey (keys : Word) : Byte := BitVec.ofNat 8 (((List.range 16).find? keys.getLsbD).getD 0)

/-- The effective address `I + k`, an exact sum: it does not wrap (spec/20_memory.md R42, log 8). -/
def effAddr (s : State) (k : Nat) : Nat := s.i.toNat + k

/-- Whether the `len` bytes from I on lie in 0x000..0xFFF: `I + len - 1 <= 0xFFF` for a non-empty range, and nothing to
check for an empty one (R42, spec/44_display.md R110). -/
def rangeOk (s : State) (len : Nat) : Bool := len == 0 || decide (s.i.toNat + len - 1 ≤ 0xFFF)

/-- `FONT_BASE + (V[x] AND 0xF) * 5` (spec/43_memory_index.md R105). -/
def glyphAddr (s : State) (x : RegIx) : Nat := Config.fontBase.val + (getV s x &&& 0xF#8).toNat * 5

/-- The register file a draw reads its coordinates from: as it stands when `DRAW_COORD_LATCH` is true, else with VF
already cleared (decision D11, log 6). -/
def coordSource (s : State) : State :=
  if Config.drawCoordLatch then s else { s with v := s.v.set 15 0 }

/-- `cx = V[x] mod 64`, the column of a draw (R110). -/
def drawColumn (s : State) (x : RegIx) : Nat := (getV (coordSource s) x).toNat % 64

/-- `cy = V[y] mod 32`, the row of a draw (R110). -/
def drawRow (s : State) (y : RegIx) : Nat := (getV (coordSource s) y).toNat % 32

end Sys2Proof.Machine
end

