-- ==== Sys2Proof/Machine/Ops.lean ====
section
/-! DEFINITION. The named operations over memory, registers, stack and display, raising a runtime error, and the fetch and
the PC advance of a step. -/

namespace Sys2Proof.Machine

/-! ## Memory (spec/20_memory.md) -/

/-- What an unlisted address reads as: the reset contents (spec/10_state.md R32), the glyph bytes at FONT_BASE and 0
elsewhere. The font lies below 0x200 (R43), so an address from there on is 0 without a look at the font. -/
def resetByte (a : Nat) : Byte :=
  if a < 0x200 then
    if h : Config.fontBase.val ≤ a ∧ a < Config.fontBase.val + 80 then
      Config.fontByte ⟨a - Config.fontBase.val, by omega⟩
    else 0
  else 0

/-- The byte a memory list holds at an address, if it lists one. -/
def Memory.lookup : Memory → Nat → Option Byte
  | [], _ => none
  | (k, b) :: rest, a => if k = a then some b else Memory.lookup rest a

/-- `MEM[a]`. -/
def Memory.read (m : Memory) (a : Nat) : Byte := (Memory.lookup m a).getD (resetByte a)

/-- List a byte at an address, in address order, in place of what is listed there. -/
def Memory.insert (a : Nat) (b : Byte) : Memory → Memory
  | [] => [(a, b)]
  | (k, c) :: rest =>
    if a < k then (a, b) :: (k, c) :: rest
    else if a = k then (a, b) :: rest
    else (k, c) :: Memory.insert a b rest

/-- Unlist an address. -/
def Memory.erase (a : Nat) : Memory → Memory
  | [] => []
  | (k, c) :: rest => if k = a then Memory.erase a rest else (k, c) :: Memory.erase a rest

/-- `MEM[a] <- b`, keeping the canonical form: writing the reset byte unlists the address. An address above 0xFFF names no
cell; the instructions raise an error before they get here with one. -/
def Memory.write (m : Memory) (a : Nat) (b : Byte) : Memory :=
  if a < 4096 then
    if b = resetByte a then Memory.erase a m else Memory.insert a b m
  else m

/-- The canonical form from an address on: strictly rising addresses, each in 0x000..0xFFF, and no byte equal to its reset
byte. -/
def Memory.wfFrom : Nat → Memory → Bool
  | _, [] => true
  | lo, (k, b) :: rest => decide (lo ≤ k) && decide (k < 4096) && b != resetByte k && Memory.wfFrom (k + 1) rest

/-- The canonical form of memory. -/
def Memory.wf (m : Memory) : Bool := Memory.wfFrom 0 m

/-- Write bytes at rising addresses from `a` on (R50). -/
def Memory.writeAll : Memory → Nat → List Byte → Memory
  | m, _, [] => m
  | m, a, b :: bs => Memory.writeAll (Memory.write m a b) (a + 1) bs

/-- `MEM[a]` of a state. -/
def readMem (s : State) (a : Nat) : Byte := s.mem.read a

/-- Write bytes at rising addresses from `a` on. -/
def storeBytes (a : Nat) (bs : List Byte) (s : State) : State := { s with mem := s.mem.writeAll a bs }

/-! ## Registers, timers, PC (spec/10_state.md) -/

/-- `V[x] <- b`. -/
def setV (x : RegIx) (b : Byte) (s : State) : State := { s with v := s.v.set x.toNat b x.isLt }

/-- `V[0xF] <- b`: the flag output (R35). An instruction does this last. -/
def setVF (b : Byte) (s : State) : State := setV 0xF#4 b s

/-- `for k in 0 .. n-1: V[k] <- f k`. -/
def fillRegs (f : Nat → Byte) : Nat → Vector Byte 16 → Vector Byte 16
  | 0, v => v
  | n + 1, v => (fillRegs f n v).setIfInBounds n (f n)

/-- `for k in 0 .. x: V[k] <- f k` (R108). -/
def setVUpTo (x : RegIx) (f : Nat → Byte) (s : State) : State := { s with v := fillRegs f (x.toNat + 1) s.v }

/-- `I <- w`. -/
def setI (w : Word) (s : State) : State := { s with i := w }

/-- `PC <- w`. -/
def setPc (w : Word) (s : State) : State := { s with pc := w }

/-- `PC <- PC + 2`: the advance of a step (spec/40_execution_cycle.md R76), and a taken skip. -/
def advancePc (s : State) : State := setPc (s.pc + 2) s

/-- `PC <- PC - 2`: a wait-key retry (spec/45_timers_input.md R115). -/
def rewindPc (s : State) : State := setPc (s.pc - 2) s

/-- `if c then PC <- PC + 2` (spec/41_control_transfer.md R85-R88). -/
def skipIf (c : Bool) (s : State) : State := if c then advancePc s else s

/-- `DT <- b`. -/
def setDT (b : Byte) (s : State) : State := { s with dt := b }

/-- `ST <- b`. -/
def setST (b : Byte) (s : State) : State := { s with st := b }

/-! ## The call stack (R30) -/

/-- `STACK[SP] <- w; SP <- SP + 1` when an entry is free (SP < 16); `none` when SP = 16. -/
def push (w : Word) (s : State) : Option State :=
  if h : s.sp.val < 16 then
    some { s with stack := s.stack.set s.sp.val w h, sp := ⟨s.sp.val + 1, by omega⟩ }
  else none

/-- `SP <- SP - 1`, and the entry STACK[SP] then names; `none` when SP = 0. The entry keeps its value (log 14). -/
def pop (s : State) : Option (Word × State) :=
  if h : 0 < s.sp.val then
    some (s.stack[s.sp.val - 1]'(by have := s.sp.isLt; omega), { s with sp := ⟨s.sp.val - 1, by omega⟩ })
  else none

/-! ## Random draws and free values -/

/-- `draw_random()`: the next byte of an unconstrained sequence (spec/42_alu.md R102, log 3). -/
def drawRandom (s : State) : Byte × State := (Config.randomByte s.rng, { s with rng := s.rng + 1 })

/-- `len` free bytes, from the counter on (log 5). -/
def freeBytes (s : State) (len : Nat) : List Byte := (List.range len).map fun k => Config.freeByte (s.free + k)

/-- Count `len` free values as used. -/
def useFree (len : Nat) (s : State) : State := { s with free := s.free + len }

/-! ## The display (spec/44_display.md) -/

/-- `DISPLAY[k]` of a framebuffer: bit `k mod 64` of row `k / 64` (R31); an index above 2047 names no cell. -/
def cellAt (d : Display) (k : Nat) : Bool := if h : k / 64 < 32 then d[k / 64].getLsbD (k % 64) else false

/-- `DISPLAY[k]`. -/
def cell (s : State) (k : Nat) : Bool := cellAt s.display k

/-- Every cell 0 (R109). -/
def blankDisplay : Display := Vector.replicate 32 0

/-- Replace the whole display. -/
def setDisplay (d : Display) (s : State) : State := { s with display := d }

/-- The index of the cell that sprite row `r`, column `c` falls on when the sprite is drawn at (cx, cy): coordinates wrap
(R110). -/
def cellIndex (cx cy r c : Nat) : Nat := ((cy + r) % 32) * 64 + (cx + c) % 64

/-- The cells under the set bits of one sprite row, left to right: bit 7 is the leftmost column (R110, log 9). -/
def rowCells (cx cy r : Nat) (row : Byte) : List Nat :=
  ((List.range 8).filter fun c => row.getLsbD (7 - c)).map fun c => cellIndex cx cy r c

/-- The cells under the set bits of the sprite rows, in the order of R110's scan, the first row being row `r`. -/
def spriteCells (cx cy : Nat) : Nat → List Byte → List Nat
  | _, [] => []
  | r, row :: rows => rowCells cx cy r row ++ spriteCells cx cy (r + 1) rows

/-- Complement one cell. -/
def flipCell (d : Display) (k : Nat) : Display :=
  if h : k / 64 < 32 then d.set (k / 64) (d[k / 64] ^^^ (1#64 <<< (k % 64))) else d

/-- R110's inner loop over the cells under set bits: the display after it, and whether some cell was 1 when it was met. -/
def flipCells : List Nat → Display → Display × Bool
  | [], d => (d, false)
  | k :: ks, d => ((flipCells ks (flipCell d k)).1, cellAt d k || (flipCells ks (flipCell d k)).2)

/-- The sprite rows: the `n` bytes from I on (R110). -/
def spriteRows (s : State) (n : Nat) : List Byte := (List.range n).map fun r => readMem s (effAddr s r)

/-- The cells under an `n`-row sprite drawn at (cx, cy), set bit or not. -/
def areaCells (cx cy n : Nat) : List Nat :=
  (List.range n).flatMap fun r => (List.range 8).map fun c => cellIndex cx cy r c

/-- Put free values into cells, the j-th of the list taking the free cell `base + j` (R137, log 5). -/
def freeCells (base : Nat) : List Nat → Display → Display
  | [], d => d
  | k :: ks, d =>
    freeCells (base + 1) ks (if Config.freeCell base = cellAt d k then d else flipCell d k)

/-! ## Raising a runtime error (spec/60_exceptions.md R136, R137)

This is the CORE's whole exception entry: nothing is saved, there is no vector and no handler, and there is no return from
it (R143). -/

/-- `raise E()`: FAULT is set and the step ends. PC stays where the step has left it (R137). -/
def raiseError (e : RuntimeError) (s : State) : State := { s with fault := some e }

/-- A MemoryAccessViolation of Fx33 or Fx55: the `len` bytes from I on, those that exist, hold free values (R137). -/
def raiseStore (len : Nat) (s : State) : State :=
  raiseError .memoryAccessViolation (useFree len (storeBytes (effAddr s 0) (freeBytes s len) s))

/-- A MemoryAccessViolation of Fx65: V0..Vx hold free values (R137). -/
def raiseLoad (x : RegIx) (s : State) : State :=
  raiseError .memoryAccessViolation
    (useFree (x.toNat + 1) (setVUpTo x (fun k => Config.freeByte (s.free + k)) s))

/-- A MemoryAccessViolation of Dxyn: VF and the cells under the sprite hold free values (R137). -/
def raiseDraw (cx cy n : Nat) (s : State) : State :=
  raiseError .memoryAccessViolation
    (useFree (8 * n + 1)
      (setVF (Config.freeByte s.free) (setDisplay (freeCells s.free (areaCells cx cy n) s.display) s)))

/-! ## The start of a step (spec/40_execution_cycle.md R74) -/

/-- The opcode at an address, or `none` where its second byte would lie above 0xFFF. -/
def fetch (s : State) (a : Nat) : Option Opcode :=
  if a > 0xFFE then none else some (opcodeOfBytes (readMem s a) (readMem s (a + 1)))

/-- Place an opcode where the next step fetches, in the bytes' order of R45, on a CORE that is not halted. -/
def placeOpcode (op : Opcode) (s : State) : State :=
  { storeBytes s.pc.toNat [opcodeHi op, opcodeLo op] s with fault := none }

end Sys2Proof.Machine
end

