-- ==== Sys2Proof/Machine/Alu.lean ====
section
/-! DEFINITION. The meanings of spec/42_alu.md. Operands are read before any write, and a flag is written to VF last
(R90). -/

namespace Sys2Proof.Machine

/-- A register result with no flag. -/
def putResult (x : RegIx) (r : Byte) (s : State) : Host.Outcome State Fault Refusal := .next (setV x r s)

/-- A register result and then the flag, which wins when x = F (spec/10_state.md R35). -/
def putResultFlag (x : RegIx) (r flag : Byte) (s : State) : Host.Outcome State Fault Refusal :=
  .next (setVF flag (setV x r s))

/-- load-imm, 6xnn (R91). -/
def execLoadImm (x : RegIx) (nn : Byte) (s : State) : Host.Outcome State Fault Refusal := putResult x nn s

/-- add-imm, 7xnn (R92): modulo 2^8, no flag. -/
def execAddImm (x : RegIx) (nn : Byte) (s : State) : Host.Outcome State Fault Refusal := putResult x (getV s x + nn) s

/-- reg-mov, 8xy0 (R93). -/
def execRegMov (x y : RegIx) (s : State) : Host.Outcome State Fault Refusal := putResult x (getV s y) s

/-- reg-or, 8xy1 (R94). -/
def execRegOr (x y : RegIx) (s : State) : Host.Outcome State Fault Refusal := putResult x (getV s x ||| getV s y) s

/-- reg-and, 8xy2 (R95). -/
def execRegAnd (x y : RegIx) (s : State) : Host.Outcome State Fault Refusal := putResult x (getV s x &&& getV s y) s

/-- reg-xor, 8xy3 (R96). -/
def execRegXor (x y : RegIx) (s : State) : Host.Outcome State Fault Refusal := putResult x (getV s x ^^^ getV s y) s

/-- reg-add, 8xy4 (R97). -/
def execRegAdd (x y : RegIx) (s : State) : Host.Outcome State Fault Refusal :=
  putResultFlag x (getV s x + getV s y) (carryFlag (getV s x) (getV s y)) s

/-- reg-sub, 8xy5 (R98). -/
def execRegSub (x y : RegIx) (s : State) : Host.Outcome State Fault Refusal :=
  putResultFlag x (getV s x - getV s y) (notBorrowFlag (getV s x) (getV s y)) s

/-- reg-shr, 8xy6 (R99): Vx is shifted, Vy is not read. -/
def execRegShr (x _y : RegIx) (s : State) : Host.Outcome State Fault Refusal :=
  putResultFlag x (getV s x >>> 1) (lsbFlag (getV s x)) s

/-- reg-subn, 8xy7 (R100). -/
def execRegSubn (x y : RegIx) (s : State) : Host.Outcome State Fault Refusal :=
  putResultFlag x (getV s y - getV s x) (notBorrowFlag (getV s y) (getV s x)) s

/-- reg-shl, 8xyE (R101): Vx is shifted, Vy is not read. -/
def execRegShl (x _y : RegIx) (s : State) : Host.Outcome State Fault Refusal :=
  putResultFlag x (getV s x <<< 1) (msbFlag (getV s x)) s

/-- random, Cxnn (R102): a fresh draw, masked. -/
def execRandom (x : RegIx) (nn : Byte) (s : State) : Host.Outcome State Fault Refusal :=
  putResult x ((drawRandom s).1 &&& nn) (drawRandom s).2

end Sys2Proof.Machine
end

