-- ==== Sys2Proof/Machine/Control.lean ====
section
/-! DEFINITION. The meanings of the no-op and of spec/41_control_transfer.md: return, jump, call, the compare-skips and
jump-offset. A meaning starts from the state with PC = PCa + 2 (spec/40_execution_cycle.md R76). -/

namespace Sys2Proof.Machine

/-- An undefined opcode: nothing but the PC advance the step has made (R80). -/
def execNop (_op : Opcode) (s : State) : Host.Outcome State Fault Refusal := .next s

/-- return, 00EE (R82). -/
def execRet (s : State) : Host.Outcome State Fault Refusal :=
  match pop s with
  | some (w, s') => .next (setPc w s')
  | none => .next (raiseError .stackUnderflow s)

/-- jump, 1nnn (R83). -/
def execJump (nnn : Addr) (s : State) : Host.Outcome State Fault Refusal := .next (setPc (nnn.setWidth 16) s)

/-- call, 2nnn (R84): the pushed PC is PCa + 2. -/
def execCall (nnn : Addr) (s : State) : Host.Outcome State Fault Refusal :=
  match push s.pc s with
  | some s' => .next (setPc (nnn.setWidth 16) s')
  | none => .next (raiseError .stackOverflow s)

/-- skip-eq-imm, 3xnn (R85). -/
def execSkipEqImm (x : RegIx) (nn : Byte) (s : State) : Host.Outcome State Fault Refusal :=
  .next (skipIf (getV s x == nn) s)

/-- skip-ne-imm, 4xnn (R86). -/
def execSkipNeImm (x : RegIx) (nn : Byte) (s : State) : Host.Outcome State Fault Refusal :=
  .next (skipIf (getV s x != nn) s)

/-- skip-eq-reg, 5xyn (R87): n is ignored (R63, log 11). -/
def execSkipEqReg (x y : RegIx) (_n : BitVec 4) (s : State) : Host.Outcome State Fault Refusal :=
  .next (skipIf (getV s x == getV s y) s)

/-- skip-ne-reg, 9xyn (R88): n is ignored (R63, log 11). -/
def execSkipNeReg (x y : RegIx) (_n : BitVec 4) (s : State) : Host.Outcome State Fault Refusal :=
  .next (skipIf (getV s x != getV s y) s)

/-- jump-offset, Bnnn (R89): the sum is at most 0x10FE, so 16 bits hold it exactly; it is not masked (log 10). -/
def execJumpOffset (nnn : Addr) (s : State) : Host.Outcome State Fault Refusal :=
  .next (setPc (nnn.setWidth 16 + (getV s 0x0#4).setWidth 16) s)

end Sys2Proof.Machine
end

