-- ==== Sys2Proof/Machine/Draw.lean ====
section
/-! DEFINITION. The meanings of spec/44_display.md: clear-screen and draw-sprite. -/

namespace Sys2Proof.Machine

/-- clear-screen, 00E0 (R109). -/
def execClearScreen (s : State) : Host.Outcome State Fault Refusal := .next (setDisplay blankDisplay s)

/-- The display and the collision that a draw of the given rows at (cx, cy) gives (R110). -/
def drawRows (cx cy : Nat) (rows : List Byte) (d : Display) : Display × Bool :=
  flipCells (spriteCells cx cy 0 rows) d

/-- draw-sprite, Dxyn (R110). -/
def execDrawSprite (x y : RegIx) (n : BitVec 4) (s : State) : Host.Outcome State Fault Refusal :=
  if rangeOk s n.toNat then
    .next (setVF (flagByte (drawRows (drawColumn s x) (drawRow s y) (spriteRows s n.toNat) s.display).2)
      (setDisplay (drawRows (drawColumn s x) (drawRow s y) (spriteRows s n.toNat) s.display).1 s))
  else .next (raiseDraw (drawColumn s x) (drawRow s y) n.toNat s)

end Sys2Proof.Machine
end

