-- ==== Sys2Proof/Machine/MemoryIndex.lean ====
section
/-! DEFINITION. The meanings of spec/43_memory_index.md. The range is checked before any access, and I is left alone by every
memory access (log 12). -/

namespace Sys2Proof.Machine

/-- load-index, Annn (R103). -/
def execLoadIndex (nnn : Addr) (s : State) : Host.Outcome State Fault Refusal := .next (setI (nnn.setWidth 16) s)

/-- add-index, Fx1E (R104): modulo 2^16, no flag (log 8). -/
def execAddIndex (x : RegIx) (s : State) : Host.Outcome State Fault Refusal :=
  .next (setI (s.i + (getV s x).setWidth 16) s)

/-- font-char, Fx29 (R105). -/
def execFontChar (x : RegIx) (s : State) : Host.Outcome State Fault Refusal :=
  .next (setI (BitVec.ofNat 16 (glyphAddr s x)) s)

/-- The hundreds, tens and ones digits of a byte (R106). -/
def bcdDigits (b : Byte) : List Byte :=
  [BitVec.ofNat 8 (b.toNat / 100), BitVec.ofNat 8 (b.toNat / 10 % 10), BitVec.ofNat 8 (b.toNat % 10)]

/-- bcd, Fx33 (R106). -/
def execBcd (x : RegIx) (s : State) : Host.Outcome State Fault Refusal :=
  if rangeOk s 3 then .next (storeBytes (effAddr s 0) (bcdDigits (getV s x)) s)
  else .next (raiseStore 3 s)

/-- V0..Vx, the bytes Fx55 stores (R107). -/
def regsUpTo (x : RegIx) (s : State) : List Byte :=
  (List.range (x.toNat + 1)).map fun k => getV s (BitVec.ofNat 4 k)

/-- store-regs, Fx55 (R107). -/
def execStoreRegs (x : RegIx) (s : State) : Host.Outcome State Fault Refusal :=
  if rangeOk s (x.toNat + 1) then .next (storeBytes (effAddr s 0) (regsUpTo x s) s)
  else .next (raiseStore (x.toNat + 1) s)

/-- load-regs, Fx65 (R108). -/
def execLoadRegs (x : RegIx) (s : State) : Host.Outcome State Fault Refusal :=
  if rangeOk s (x.toNat + 1) then .next (setVUpTo x (fun k => readMem s (effAddr s k)) s)
  else .next (raiseLoad x s)

end Sys2Proof.Machine
end

