-- ==== Sys2Proof/Machine/TimersInput.lean ====
section
/-! DEFINITION. The meanings of spec/45_timers_input.md: the key skips, wait-key and the timer instructions. -/

namespace Sys2Proof.Machine

/-- skip-key-down, Ex9E (R112). -/
def execSkipKeyDown (x : RegIx) (s : State) : Host.Outcome State Fault Refusal :=
  .next (skipIf (keyHeld s (keyIndex s x)) s)

/-- skip-key-up, ExA1 (R113). -/
def execSkipKeyUp (x : RegIx) (s : State) : Host.Outcome State Fault Refusal :=
  .next (skipIf (!keyHeld s (keyIndex s x)) s)

/-- get-delay, Fx07 (R114). -/
def execGetDelay (x : RegIx) (s : State) : Host.Outcome State Fault Refusal := .next (setV x s.dt s)

/-- wait-key, Fx0A (R115): with no key held the same instruction runs again at the next step. -/
def execWaitKey (x : RegIx) (s : State) : Host.Outcome State Fault Refusal :=
  if s.keys = 0 then .next (rewindPc s) else .next (setV x (lowestKey s.keys) s)

/-- set-delay, Fx15 (R116). -/
def execSetDelay (x : RegIx) (s : State) : Host.Outcome State Fault Refusal := .next (setDT (getV s x) s)

/-- set-sound, Fx18 (R117). -/
def execSetSound (x : RegIx) (s : State) : Host.Outcome State Fault Refusal := .next (setST (getV s x) s)

end Sys2Proof.Machine
end

