-- ==== Sys2Proof/Machine/Dispatch.lean ====
section
/-! DEFINITION. The dispatch of spec/40_execution_cycle.md R78: one arm per instruction. -/

namespace Sys2Proof.Machine

/-- The execute part of a step (R78): the meaning of a decoded instruction, from the state with PC = PCa + 2. -/
def exec (i : Instr) (s : State) : Host.Outcome State Fault Refusal :=
  match i with
  | .clearScreen => Sys2Proof.Machine.execClearScreen s
  | .ret => Sys2Proof.Machine.execRet s
  | .jump nnn => Sys2Proof.Machine.execJump nnn s
  | .call nnn => Sys2Proof.Machine.execCall nnn s
  | .skipEqImm x nn => Sys2Proof.Machine.execSkipEqImm x nn s
  | .skipNeImm x nn => Sys2Proof.Machine.execSkipNeImm x nn s
  | .skipEqReg x y n => Sys2Proof.Machine.execSkipEqReg x y n s
  | .loadImm x nn => Sys2Proof.Machine.execLoadImm x nn s
  | .addImm x nn => Sys2Proof.Machine.execAddImm x nn s
  | .regMov x y => Sys2Proof.Machine.execRegMov x y s
  | .regOr x y => Sys2Proof.Machine.execRegOr x y s
  | .regAnd x y => Sys2Proof.Machine.execRegAnd x y s
  | .regXor x y => Sys2Proof.Machine.execRegXor x y s
  | .regAdd x y => Sys2Proof.Machine.execRegAdd x y s
  | .regSub x y => Sys2Proof.Machine.execRegSub x y s
  | .regShr x y => Sys2Proof.Machine.execRegShr x y s
  | .regSubn x y => Sys2Proof.Machine.execRegSubn x y s
  | .regShl x y => Sys2Proof.Machine.execRegShl x y s
  | .skipNeReg x y n => Sys2Proof.Machine.execSkipNeReg x y n s
  | .loadIndex nnn => Sys2Proof.Machine.execLoadIndex nnn s
  | .jumpOffset nnn => Sys2Proof.Machine.execJumpOffset nnn s
  | .random x nn => Sys2Proof.Machine.execRandom x nn s
  | .drawSprite x y n => Sys2Proof.Machine.execDrawSprite x y n s
  | .skipKeyDown x => Sys2Proof.Machine.execSkipKeyDown x s
  | .skipKeyUp x => Sys2Proof.Machine.execSkipKeyUp x s
  | .getDelay x => Sys2Proof.Machine.execGetDelay x s
  | .waitKey x => Sys2Proof.Machine.execWaitKey x s
  | .setDelay x => Sys2Proof.Machine.execSetDelay x s
  | .setSound x => Sys2Proof.Machine.execSetSound x s
  | .addIndex x => Sys2Proof.Machine.execAddIndex x s
  | .fontChar x => Sys2Proof.Machine.execFontChar x s
  | .bcd x => Sys2Proof.Machine.execBcd x s
  | .storeRegs x => Sys2Proof.Machine.execStoreRegs x s
  | .loadRegs x => Sys2Proof.Machine.execLoadRegs x s
  | .nop op => Sys2Proof.Machine.execNop op s

end Sys2Proof.Machine
end

