-- ==== Sys2Proof/Machine/Step.lean ====
section
/-! DEFINITION. One step: fetch, advance PC by 2, decode, execute (spec/40_execution_cycle.md R73). -/

namespace Sys2Proof.Machine

/-- `step()` (R73). A halted CORE has no transition (R139). A fetch error sets FAULT and changes nothing else (R74, R137). A
runtime error is a next state with FAULT set: the `Err` that `step` returns is that state's FAULT (R136, log 4). -/
def step (s : State) : Host.Outcome State Fault Refusal :=
  match s.fault with
  | some e => .fault (.halted e)
  | none =>
    match fetch s s.pc.toNat with
    | none => .next (raiseError .memoryAccessViolation s)
    | some op => exec (decodeOpcode op) (advancePc s)

/-- `s` with an instruction word of the opcode table stored where the next step fetches, on a CORE that is not halted
(log 17). -/
def State.withFetchWord (s : State) (nbits w : Nat) : State := placeOpcode (opcodeOfTable nbits w) s

end Sys2Proof.Machine
end

