-- ==== Sys2Proof/Machine/HostPort.lean ====
section
/-! DEFINITION. The command port of spec/46_host_interface.md R123: the host operations, each one atomic transaction between
steps, in any order and number. -/

namespace Sys2Proof.Machine

/-! ## Operations on the CORE's state -/

/-- One timer's decrement: a timer at 0 stays at 0 (spec/45_timers_input.md R120). -/
def countDown (t : Byte) : Byte := if t = 0 then 0 else t - 1

/-- `decrementTimers()` (R120). -/
def decrementTimers (s : State) : State := setST (countDown s.st) (setDT (countDown s.dt) s)

/-- Replace the keypad mask. -/
def setKeys (w : Word) (s : State) : State := { s with keys := w }

/-- `1 << k`, the mask bit of a key. -/
def keyBit (k : Byte) : Word := 1#16 <<< k.toNat

/-- `pressKey(k)`: a key above 0xF is ignored (R121). -/
def pressKey (k : Byte) (s : State) : State := if k.toNat ≤ 0xF then setKeys (s.keys ||| keyBit k) s else s

/-- `releaseKey(k)`: a key above 0xF is ignored (R122). -/
def releaseKey (k : Byte) (s : State) : State := if k.toNat ≤ 0xF then setKeys (s.keys &&& ~~~keyBit k) s else s

/-- `getDisplay()`: cell k of the view is DISPLAY[k] (R126). -/
def getDisplay (s : State) : Vector Bool 2048 := Vector.ofFn fun k => cell s k.val

/-- `getSoundTimer()` (R127). -/
def getSoundTimer (s : State) : Byte := s.st

/-- The derived output `sound_active` (spec/10_state.md R27). -/
def soundActive (s : State) : Bool := s.st != 0

/-- The load errors (spec/60_exceptions.md R133, R135). -/
inductive LoadError where
  /-- More than 3584 bytes. -/
  | tooLarge
deriving DecidableEq, Repr

/-- The numeric code of a load error, in a space of its own (R135). -/
def LoadError.code : LoadError → Nat
  | .tooLarge => 1

/-- The memory effect of `load(bytes)`: the bytes verbatim from 0x200 on, or TooLarge (R124). -/
def loadBytes (bytes : List Byte) (s : State) : Except LoadError State :=
  if bytes.length > Config.maxProgram then .error .tooLarge
  else .ok (storeBytes Config.programBase bytes s)

/-! ## The port -/

/-- A CORE and what its port remembers of it. -/
structure Session where
  /-- The CORE's state: all of it can be observed between operations (R128). -/
  core : State
  /-- Whether a `step` has run since construction: `load` is admitted only before that (R124, log 15). -/
  stepped : Bool
deriving DecidableEq, Repr

/-- `construct`: a new CORE in the launch state (spec/70_reset_and_hazards.md R152, R154). -/
def Session.construct : Session := { core := State.reset, stepped := false }

/-- The host operations on a CORE (R123). `k` ranges over 0..255. -/
inductive HostOp where
  | load (bytes : List Byte)
  | step
  | decrementTimers
  | pressKey (k : Byte)
  | releaseKey (k : Byte)
  | getDisplay
  | getSoundTimer
deriving DecidableEq, Repr

/-- What a host operation returns (R123). -/
inductive Reply where
  /-- `Ok` of `load` and `step`. -/
  | ok
  /-- `Err` of `load`. -/
  | loadErr (e : LoadError)
  /-- `Err` of `step`. -/
  | stepErr (e : RuntimeError)
  /-- Operations with no result. -/
  | done
  /-- The view of `getDisplay`. -/
  | cells (view : Vector Bool 2048)
  /-- The value of `getSoundTimer`. -/
  | sound (t : Byte)
deriving DecidableEq, Repr

/-- What `step` returned, read off the state after it: `Err(E)` when the step raised E, `Ok` otherwise (R73, R136). -/
def stepReply (after : State) : Reply :=
  match after.fault with
  | some e => .stepErr e
  | none => .ok

/-- One host operation: the session after it and its result. -/
def Session.call (op : HostOp) (S : Session) : Host.Outcome (Session × Reply) Fault Refusal :=
  match op with
  | .load bytes =>
    if S.stepped then .refused .loadAfterStep
    else
      match loadBytes bytes S.core with
      | .ok s => .next ({ S with core := s }, .ok)
      | .error e => .next (S, .loadErr e)
  | .step =>
    match step S.core with
    | .next s => .next ({ core := s, stepped := true }, stepReply s)
    | .fault r => .fault r
    | .refused r => .refused r
  | .decrementTimers => .next ({ S with core := decrementTimers S.core }, .done)
  | .pressKey k => .next ({ S with core := pressKey k S.core }, .done)
  | .releaseKey k => .next ({ S with core := releaseKey k S.core }, .done)
  | .getDisplay => .next (S, .cells (getDisplay S.core))
  | .getSoundTimer => .next (S, .sound (getSoundTimer S.core))

/-- A sequence of host operations (R154), stopping at the first that gives no next state. -/
def Session.run : List HostOp → Session → Host.Outcome (Session × List Reply) Fault Refusal
  | [], S => .next (S, [])
  | op :: ops, S =>
    match Session.call op S with
    | .next (S', r) =>
      match Session.run ops S' with
      | .next (S'', rs) => .next (S'', r :: rs)
      | .fault f => .fault f
      | .refused q => .refused q
    | .fault f => .fault f
    | .refused q => .refused q

end Sys2Proof.Machine
end

