-- ==== Sys2Proof/Safety.lean ====
section
/-! DEFINITION. The terms claims are stated in: what an operation leaves unchanged, when an instruction raises an error, what
a sprite covers, the invariant of the machine, quiescent states, and reachable sessions. -/

namespace Sys2Proof.Machine

/-! ## Frames -/

/-- The parts of the state (spec/10_state.md, state summary), and the model's own counter. -/
inductive Part where
  | regs | index | pc | sp | stack | delay | sound | keys | display | memory | fault | rng | free
deriving DecidableEq, Repr

/-- A part reads the same in two states: every register, every cell, every byte. -/
def Unchanged : Part → State → State → Prop
  | .regs, s, t => ∀ r, getV t r = getV s r
  | .index, s, t => t.i = s.i
  | .pc, s, t => t.pc = s.pc
  | .sp, s, t => t.sp = s.sp
  | .stack, s, t => t.stack = s.stack
  | .delay, s, t => t.dt = s.dt
  | .sound, s, t => t.st = s.st
  | .keys, s, t => t.keys = s.keys
  | .display, s, t => ∀ k, cell t k = cell s k
  | .memory, s, t => ∀ a, readMem t a = readMem s a
  | .fault, s, t => t.fault = s.fault
  | .rng, s, t => t.rng = s.rng
  | .free, s, t => t.free = s.free

/-- Everything but the listed parts is unchanged from `s` to `t`. -/
def SameBut (changed : List Part) (s t : State) : Prop := ∀ p, p ∉ changed → Unchanged p s t

/-- From `s` to `t`, register x takes a value and nothing else changes. -/
def RegWrite (x : RegIx) (b : Byte) (s t : State) : Prop :=
  getV t x = b ∧ (∀ r, r ≠ x → getV t r = getV s r) ∧ SameBut [.regs] s t

/-- From `s` to `t`, VF takes the flag, register x (if it is not VF) takes the result, and nothing else changes: the flag is
written last (R35). -/
def RegFlagWrite (x : RegIx) (b flag : Byte) (s t : State) : Prop :=
  getV t 0xF#4 = flag ∧ (x ≠ 0xF#4 → getV t x = b) ∧ (∀ r, r ≠ x → r ≠ 0xF#4 → getV t r = getV s r) ∧
    SameBut [.regs] s t

/-! ## Errors -/

/-- The runtime error table (spec/60_exceptions.md R134), the rows that an instruction raises. -/
inductive Raises : Instr → State → RuntimeError → Prop where
  | draw {x y n s} : n.toNat > 0 → s.i.toNat + n.toNat - 1 > 0xFFF → Raises (.drawSprite x y n) s .memoryAccessViolation
  | bcd {x s} : s.i.toNat + 2 > 0xFFF → Raises (.bcd x) s .memoryAccessViolation
  | storeRegs {x s} : s.i.toNat + x.toNat > 0xFFF → Raises (.storeRegs x) s .memoryAccessViolation
  | loadRegs {x s} : s.i.toNat + x.toNat > 0xFFF → Raises (.loadRegs x) s .memoryAccessViolation
  | call {nnn s} : s.sp.val = 16 → Raises (.call nnn) s .stackOverflow
  | ret {s} : s.sp.val = 0 → Raises .ret s .stackUnderflow

/-! ## Tables over the instructions -/

/-- The registers an instruction may write (spec/10_state.md R18, the column "writes"). -/
def Writes (i : Instr) (r : RegIx) : Prop :=
  match i with
  | .loadImm x _ | .addImm x _ | .regMov x _ | .regOr x _ | .regAnd x _ | .regXor x _ | .random x _ | .getDelay x
  | .waitKey x => r = x
  | .regAdd x _ | .regSub x _ | .regShr x _ | .regSubn x _ | .regShl x _ => r = x ∨ r = 0xF#4
  | .drawSprite _ _ _ => r = 0xF#4
  | .loadRegs x => r.toNat ≤ x.toNat
  | .clearScreen | .ret | .jump _ | .call _ | .skipEqImm _ _ | .skipNeImm _ _ | .skipEqReg _ _ _ | .skipNeReg _ _ _
  | .loadIndex _ | .jumpOffset _ | .skipKeyDown _ | .skipKeyUp _ | .setDelay _ | .setSound _ | .addIndex _
  | .fontChar _ | .bcd _ | .storeRegs _ | .nop _ => False

/-- The parts of the state an instruction may write when it raises no error (spec/10_state.md, the column "written by" of
the state summary; PC is listed for the instructions that set it, the advance of the step apart). -/
def partsWritten : Instr → List Part
  | .clearScreen => [.display]
  | .ret => [.pc, .sp]
  | .call _ => [.pc, .sp, .stack]
  | .jump _ | .jumpOffset _ | .skipEqImm _ _ | .skipNeImm _ _ | .skipEqReg _ _ _ | .skipNeReg _ _ _ | .skipKeyDown _
  | .skipKeyUp _ => [.pc]
  | .loadImm _ _ | .addImm _ _ | .regMov _ _ | .regOr _ _ | .regAnd _ _ | .regXor _ _ | .regAdd _ _ | .regSub _ _
  | .regShr _ _ | .regSubn _ _ | .regShl _ _ | .getDelay _ | .loadRegs _ => [.regs]
  | .random _ _ => [.regs, .rng]
  | .waitKey _ => [.regs, .pc]
  | .drawSprite _ _ _ => [.regs, .display]
  | .loadIndex _ | .addIndex _ | .fontChar _ => [.index]
  | .bcd _ | .storeRegs _ => [.memory]
  | .setDelay _ => [.delay]
  | .setSound _ => [.sound]
  | .nop _ => []

/-- PC after a step that returns Ok (spec/10_state.md R21), for an instruction fetched at `pca` from the state `s`. -/
def pcAfter (i : Instr) (pca : Word) (s : State) : Word :=
  match i with
  | .ret => s.stack.toList.getD (s.sp.val - 1) 0
  | .jump nnn | .call nnn => BitVec.ofNat 16 nnn.toNat
  | .skipEqImm x nn => if getV s x = nn then pca + 4 else pca + 2
  | .skipNeImm x nn => if getV s x ≠ nn then pca + 4 else pca + 2
  | .skipEqReg x y _ => if getV s x = getV s y then pca + 4 else pca + 2
  | .skipNeReg x y _ => if getV s x ≠ getV s y then pca + 4 else pca + 2
  | .skipKeyDown x => if keyHeld s ((getV s x).toNat % 16) = true then pca + 4 else pca + 2
  | .skipKeyUp x => if keyHeld s ((getV s x).toNat % 16) = false then pca + 4 else pca + 2
  | .jumpOffset nnn => BitVec.ofNat 16 (nnn.toNat + (getV s 0x0#4).toNat)
  | .waitKey _ => if s.keys = 0 then pca else pca + 2
  | .clearScreen | .loadImm _ _ | .addImm _ _ | .regMov _ _ | .regOr _ _ | .regAnd _ _ | .regXor _ _ | .regAdd _ _
  | .regSub _ _ | .regShr _ _ | .regSubn _ _ | .regShl _ _ | .loadIndex _ | .random _ _ | .drawSprite _ _ _
  | .getDelay _ | .setDelay _ | .setSound _ | .addIndex _ | .fontChar _ | .bcd _ | .storeRegs _ | .loadRegs _
  | .nop _ => pca + 2

/-! ## Sprites (spec/44_display.md R110) -/

/-- `DISPLAY[k]` is the cell of sprite row `r` and column `c`, when the sprite is drawn from V[x] and V[y]. -/
def SpriteCell (s : State) (x y : RegIx) (r c k : Nat) : Prop :=
  k = (((getV s y).toNat % 32 + r) % 32) * 64 + ((getV s x).toNat % 64 + c) % 64

/-- `DISPLAY[k]` lies under a set bit of the n-row sprite at I: bit 7 is the leftmost column. -/
def SpriteCovers (s : State) (x y : RegIx) (n k : Nat) : Prop :=
  ∃ r < n, ∃ c < 8, (readMem s (s.i.toNat + r)).getLsbD (7 - c) = true ∧ SpriteCell s x y r c k

/-- `DISPLAY[k]` lies under the n-row sprite, set bit or not. -/
def SpriteArea (s : State) (x y : RegIx) (n k : Nat) : Prop := ∃ r < n, ∃ c < 8, SpriteCell s x y r c k

/-- The number of set bits of a byte. -/
def setBits (b : Byte) : Nat := (List.range 8).countP b.getLsbD

/-! ## The machine as a whole -/

/-- The opcode at PC, big-endian (spec/20_memory.md R45). -/
def opcodeAtPc (s : State) : Opcode := readMem s s.pc.toNat ++ readMem s (s.pc.toNat + 1)

/-- What every run keeps: memory in its canonical form, PC at most 0x10FE, and every occupied stack entry at most 0x1000
(spec/10_state.md R22). -/
def StateInv (s : State) : Prop :=
  s.mem.wf = true ∧ s.pc.toNat ≤ 0x10FE ∧ ∀ j : Fin 16, j.val < s.sp.val → s.stack[j].toNat ≤ 0x1000

/-- `step` returns Ok and changes no state (spec/00_scope.md R14). -/
def Quiescent (s : State) : Prop := step s = .next s

/-- The launch state of a program image (spec/70_reset_and_hazards.md R154). -/
def Launch (image : List Byte) (S : Session) : Prop := Session.call (.load image) Session.construct = .next (S, .ok)

/-- A session that some sequence of host operations reaches from construction. -/
def Reached (S : Session) : Prop := ∃ ops replies, Session.run ops Session.construct = .next (S, replies)

end Sys2Proof.Machine
end

