-- ==== Sys2Proof/Certificates/Slice0/Obligations.lean ====
section
/-! DEFINITION. The statements for the provers, from the numbered rules of spec/. A statement about an instruction is over
`exec`, from the state with PC = PCa + 2; `StepRunsDecodedInstruction` ties `exec` to a step. Each names its frame with
`SameBut`: the parts not listed there read as before. A runtime error is a next state with FAULT set (log 4). -/

open Sys2Proof Sys2Proof.Machine

/-! ## Encoding (spec/30_encoding.md) -/

/-- R58: the fields of an opcode are its bits, and any two bytes decode. -/
def Obligations.FieldsOfAnOpcode : Prop :=
  ∀ op : Opcode,
    (opC op).toNat = op.toNat / 0x1000 ∧ (opX op).toNat = op.toNat / 0x100 % 0x10 ∧
    (opY op).toNat = op.toNat / 0x10 % 0x10 ∧ (opN op).toNat = op.toNat % 0x10 ∧
    (opNN op).toNat = op.toNat % 0x100 ∧ (opNNN op).toNat = op.toNat % 0x1000 ∧
    ∀ rest, ∃ i, decode (opcodeHi op :: opcodeLo op :: rest) = .ok (i, rest)

/-- Decoding the encoding of a well-formed instruction gives it back, as an opcode and as bytes in front of others. The
category numbers are the spec's decision D4 (log 7). -/
def Obligations.DecodeUndoesEncode : Prop :=
  ∀ (i : Instr) (rest : List Byte), i.wf = true →
    decodeOpcode (encode i) = i ∧ decode (encodeBytes i ++ rest) = .ok (i, rest)

/-- No bit of an opcode is lost by decoding it, and what is decoded is well-formed. That ignored fields are kept is the
model's choice (log 23). -/
def Obligations.EncodeUndoesDecode : Prop :=
  ∀ op : Opcode, encode (decodeOpcode op) = op ∧ (decodeOpcode op).wf = true

/-- R65: the opcodes that decode to the no-op, category by category, how many there are, and that executing one does nothing.
The counts are the spec's own derivation. -/
def Obligations.UndefinedOpcodesAreNoOps : Prop :=
  (∀ op : Opcode,
    (op.toNat / 0x1000 = 0 → (decodeOpcode op = .nop op ↔ op ≠ 0x00E0#16 ∧ op ≠ 0x00EE#16)) ∧
    (op.toNat / 0x1000 = 8 → (decodeOpcode op = .nop op ↔ op.toNat % 0x10 ∈ [0x8, 0x9, 0xA, 0xB, 0xC, 0xD, 0xF])) ∧
    (op.toNat / 0x1000 = 0xE → (decodeOpcode op = .nop op ↔ op.toNat % 0x100 ∉ [0x9E, 0xA1])) ∧
    (op.toNat / 0x1000 = 0xF →
      (decodeOpcode op = .nop op ↔ op.toNat % 0x100 ∉ [0x07, 0x0A, 0x15, 0x18, 0x1E, 0x29, 0x33, 0x55, 0x65])) ∧
    (op.toNat / 0x1000 ∉ [0, 8, 0xE, 0xF] → ∀ op', decodeOpcode op ≠ .nop op')) ∧
  (List.range 0x1000).countP (fun w => decodeOpcode (BitVec.ofNat 16 w) == .nop (BitVec.ofNat 16 w)) = 4094 ∧
  (List.range 0x1000).countP
    (fun w => decodeOpcode (BitVec.ofNat 16 (0x8000 + w)) == .nop (BitVec.ofNat 16 (0x8000 + w))) = 1792 ∧
  (List.range 0x1000).countP
    (fun w => decodeOpcode (BitVec.ofNat 16 (0xE000 + w)) == .nop (BitVec.ofNat 16 (0xE000 + w))) = 4064 ∧
  (List.range 0x1000).countP
    (fun w => decodeOpcode (BitVec.ofNat 16 (0xF000 + w)) == .nop (BitVec.ofNat 16 (0xF000 + w))) = 3952 ∧
  ∀ op s, exec (.nop op) s = .next s

/-- Opcodes written out from the spec's patterns decode to the instructions they stand for. That 0x5121 is skip-eq-reg although
its low nibble is 1 is the spec's decision D13 (log 11), the category numbers are its decision D4 (log 7), and that the ignored
nibble and the opcode of a no-op are kept is the model's choice (log 23). -/
def Obligations.HandEncodedWordsDecode : Prop :=
  decodeOpcode 0x00E0#16 = .clearScreen ∧ decodeOpcode 0x01E0#16 = .nop 0x01E0#16 ∧
  decodeOpcode 0x00EE#16 = .ret ∧ decodeOpcode 0x1234#16 = .jump 0x234#12 ∧
  decodeOpcode 0x5121#16 = .skipEqReg 0x1#4 0x2#4 0x1#4 ∧ decodeOpcode 0x6005#16 = .loadImm 0x0#4 0x05#8 ∧
  decodeOpcode 0x8014#16 = .regAdd 0x0#4 0x1#4 ∧ decodeOpcode 0x8018#16 = .nop 0x8018#16 ∧
  decodeOpcode 0xA2F0#16 = .loadIndex 0x2F0#12 ∧ decodeOpcode 0xD012#16 = .drawSprite 0x0#4 0x1#4 0x2#4 ∧
  decodeOpcode 0xE09E#16 = .skipKeyDown 0x0#4 ∧ decodeOpcode 0xF10A#16 = .waitKey 0x1#4 ∧
  decodeOpcode 0xF033#16 = .bcd 0x0#4

/-! ## The execution cycle (spec/40_execution_cycle.md, spec/20_memory.md) -/

/-- R45: a fetch reads MEM[PC] into bits 15:8 and MEM[PC+1] into bits 7:0, wherever both bytes exist. -/
def Obligations.FetchIsBigEndian : Prop :=
  ∀ s : State, s.pc.toNat ≤ 0xFFE →
    ∃ op, fetch s s.pc.toNat = some op ∧ op.extractLsb' 8 8 = readMem s s.pc.toNat ∧
      op.extractLsb' 0 8 = readMem s (s.pc.toNat + 1)

/-- A halted CORE has no transition; a fetch above 0xFFE sets FAULT and changes nothing else; else the step is `exec` of the
decoded instruction with PC advanced by 2, without a wrap. That a halted CORE stops, and FAULT itself, are the spec's own
decision D6; that the Err is the next state's FAULT is the model's choice (log 4). -/
def Obligations.StepRunsDecodedInstruction : Prop :=
  ∀ s : State,
    (∀ e, s.fault = some e → step s = .fault (.halted e)) ∧
    (s.fault = none → 0xFFE < s.pc.toNat → step s = .next { s with fault := some .memoryAccessViolation }) ∧
    (s.fault = none → s.pc.toNat ≤ 0xFFE →
      (s.pc + 2).toNat = s.pc.toNat + 2 ∧
      ∀ i, decode [readMem s s.pc.toNat, readMem s (s.pc.toNat + 1)] = .ok (i, []) →
        i.wf = true ∧ step s = exec i { s with pc := s.pc + 2 })

/-- A word placed by `withFetchWord` runs at the very next step (log 17). -/
def Obligations.PlacedWordRunsNext : Prop :=
  ∀ (s : State) (nbits w : Nat), s.pc.toNat ≤ 0xFFE → nbits ≤ 16 →
    ∃ i, decodeTableWord nbits w = some i ∧
      step (s.withFetchWord nbits w) = exec i (advancePc (s.withFetchWord nbits w)) ∧
      SameBut [.memory, .fault] s (s.withFetchWord nbits w)

/-- R80: an undefined opcode changes nothing but PC, in a whole step too. -/
def Obligations.UndefinedOpcodeStep : Prop :=
  ∀ (op : Opcode) (s : State), decodeOpcode op = .nop op →
    exec (.nop op) s = .next s ∧
    (s.fault = none → s.pc.toNat ≤ 0xFFE → opcodeAtPc s = op → step s = .next { s with pc := s.pc + 2 })

/-! ## Reset (spec/70_reset_and_hazards.md) -/

/-- R152: the state right after construction. FONT_BASE and FONT_DATA are whatever the implementation has. -/
def Obligations.ConstructionState : Prop :=
  (∀ x, getV State.reset x = 0) ∧ State.reset.pc = 0x200#16 ∧ State.reset.i = 0 ∧ State.reset.sp.val = 0 ∧
  (∀ j : Fin 16, State.reset.stack[j] = 0) ∧ State.reset.dt = 0 ∧ State.reset.st = 0 ∧ State.reset.keys = 0 ∧
  (∀ k < 2048, cell State.reset k = false) ∧
  (∀ d : Fin 80, readMem State.reset (Config.fontBase.val + d.val) = Config.fontByte d) ∧
  (∀ a, (a < Config.fontBase.val ∨ Config.fontBase.val + 80 ≤ a) → readMem State.reset a = 0) ∧
  State.reset.fault = none

/-- R157 (derived by the spec): without a load the CORE walks from 0x200 to 0x1000 in 1792 steps that return Ok, and the next
step raises MemoryAccessViolation. The error as a next state is the model's choice (log 4). -/
def Obligations.EmptyProgramSlides : Prop :=
  Session.run (List.replicate 1792 .step) Session.construct =
    .next ({ core := { State.reset with pc := 0x1000#16 }, stepped := true }, List.replicate 1792 .ok) ∧
  Session.call .step { core := { State.reset with pc := 0x1000#16 }, stepped := true } =
    .next ({ core := { State.reset with pc := 0x1000#16, fault := some .memoryAccessViolation }, stepped := true },
      .stepErr .memoryAccessViolation)

/-! ## Control transfer (spec/41_control_transfer.md) -/

/-- R82: return pops PC, or raises StackUnderflow when SP = 0. The error as a next state with FAULT is the model's choice
(log 4); the popped slot keeping its value is the spec's decision D24 (log 14). -/
def Obligations.ReturnPopsPc : Prop :=
  ∀ s : State, decodeOpcode 0x00EE#16 = .ret ∧
    (∀ j : Fin 16, s.sp.val = j.val + 1 →
      ∃ t, exec .ret s = .next t ∧ t.pc = s.stack[j] ∧ t.sp.val = j.val ∧ SameBut [.pc, .sp] s t) ∧
    (s.sp.val = 0 → exec .ret s = .next { s with fault := some .stackUnderflow })

/-- R83: jump sets PC. -/
def Obligations.JumpSetsPc : Prop :=
  ∀ (nnn : Addr) (s : State), decodeOpcode (0x1#4 ++ nnn) = .jump nnn ∧
    ∃ t, exec (.jump nnn) s = .next t ∧ t.pc.toNat = nnn.toNat ∧ SameBut [.pc] s t

/-- R84: call pushes PC (= PCa + 2) and jumps, or raises StackOverflow when SP = 16. The error as a next state with FAULT is
the model's choice (log 4). -/
def Obligations.CallPushesPc : Prop :=
  ∀ (nnn : Addr) (s : State), decodeOpcode (0x2#4 ++ nnn) = .call nnn ∧
    (∀ j : Fin 16, s.sp.val = j.val →
      ∃ t, exec (.call nnn) s = .next t ∧ t.pc.toNat = nnn.toNat ∧ t.sp.val = j.val + 1 ∧ t.stack[j] = s.pc ∧
        (∀ m : Fin 16, m ≠ j → t.stack[m] = s.stack[m]) ∧ SameBut [.pc, .sp, .stack] s t) ∧
    (s.sp.val = 16 → exec (.call nnn) s = .next { s with fault := some .stackOverflow })

/-- R85, R86: skip-eq-imm and skip-ne-imm. -/
def Obligations.SkipOnImmediate : Prop :=
  ∀ (x : RegIx) (nn : Byte) (s : State),
    decodeOpcode (0x3#4 ++ x ++ nn) = .skipEqImm x nn ∧ decodeOpcode (0x4#4 ++ x ++ nn) = .skipNeImm x nn ∧
    (∃ t, exec (.skipEqImm x nn) s = .next t ∧ t.pc = (if getV s x = nn then s.pc + 2 else s.pc) ∧ SameBut [.pc] s t) ∧
    (∃ t, exec (.skipNeImm x nn) s = .next t ∧ t.pc = (if getV s x = nn then s.pc else s.pc + 2) ∧ SameBut [.pc] s t)

/-- R87, R88: skip-eq-reg and skip-ne-reg, whatever the low nibble: that it is ignored is the spec's decision D13
(log 11). -/
def Obligations.SkipOnRegisters : Prop :=
  ∀ (x y : RegIx) (n : BitVec 4) (s : State),
    decodeOpcode (0x5#4 ++ x ++ y ++ n) = .skipEqReg x y n ∧ decodeOpcode (0x9#4 ++ x ++ y ++ n) = .skipNeReg x y n ∧
    (∃ t, exec (.skipEqReg x y n) s = .next t ∧
      t.pc = (if getV s x = getV s y then s.pc + 2 else s.pc) ∧ SameBut [.pc] s t) ∧
    (∃ t, exec (.skipNeReg x y n) s = .next t ∧
      t.pc = (if getV s x = getV s y then s.pc else s.pc + 2) ∧ SameBut [.pc] s t)

/-- R89: jump-offset adds V0 exactly; that the sum is not masked is the spec's decision D10 (log 10). -/
def Obligations.JumpOffsetAddsV0 : Prop :=
  ∀ (nnn : Addr) (s : State), decodeOpcode (0xB#4 ++ nnn) = .jumpOffset nnn ∧
    ∃ t, exec (.jumpOffset nnn) s = .next t ∧ t.pc.toNat = nnn.toNat + (getV s 0x0#4).toNat ∧
      t.pc.toNat ≤ 0x10FE ∧ SameBut [.pc] s t

/-! ## ALU (spec/42_alu.md) -/

/-- R91, R93: load-imm and reg-mov. -/
def Obligations.LoadImmediateAndMove : Prop :=
  ∀ (x y : RegIx) (nn : Byte) (s : State),
    decodeOpcode (0x6#4 ++ x ++ nn) = .loadImm x nn ∧ decodeOpcode (0x8#4 ++ x ++ y ++ 0x0#4) = .regMov x y ∧
    (∃ t, exec (.loadImm x nn) s = .next t ∧ RegWrite x nn s t) ∧
    (∃ t, exec (.regMov x y) s = .next t ∧ RegWrite x (getV s y) s t)

/-- R92: add-imm wraps at 8 bits and has no flag. -/
def Obligations.AddImmediateWraps : Prop :=
  ∀ (x : RegIx) (nn : Byte) (s : State), decodeOpcode (0x7#4 ++ x ++ nn) = .addImm x nn ∧
    ∃ t, exec (.addImm x nn) s = .next t ∧ RegWrite x (BitVec.ofNat 8 ((getV s x).toNat + nn.toNat)) s t

/-- R94, R95, R96: the bitwise operations, bit by bit, with no flag. -/
def Obligations.LogicOperations : Prop :=
  ∀ (x y : RegIx) (s : State),
    decodeOpcode (0x8#4 ++ x ++ y ++ 0x1#4) = .regOr x y ∧ decodeOpcode (0x8#4 ++ x ++ y ++ 0x2#4) = .regAnd x y ∧
    decodeOpcode (0x8#4 ++ x ++ y ++ 0x3#4) = .regXor x y ∧
    (∃ t b, exec (.regOr x y) s = .next t ∧ RegWrite x b s t ∧
      ∀ k < 8, b.getLsbD k = ((getV s x).getLsbD k || (getV s y).getLsbD k)) ∧
    (∃ t b, exec (.regAnd x y) s = .next t ∧ RegWrite x b s t ∧
      ∀ k < 8, b.getLsbD k = ((getV s x).getLsbD k && (getV s y).getLsbD k)) ∧
    (∃ t b, exec (.regXor x y) s = .next t ∧ RegWrite x b s t ∧
      ∀ k < 8, b.getLsbD k = ((getV s x).getLsbD k != (getV s y).getLsbD k))

/-- R97: reg-add with the carry of the operands as they were, written last. -/
def Obligations.AddSetsCarry : Prop :=
  ∀ (x y : RegIx) (s : State), decodeOpcode (0x8#4 ++ x ++ y ++ 0x4#4) = .regAdd x y ∧
    ∃ t, exec (.regAdd x y) s = .next t ∧
      RegFlagWrite x (BitVec.ofNat 8 ((getV s x).toNat + (getV s y).toNat))
        (if (getV s x).toNat + (getV s y).toNat > 255 then 1 else 0) s t

/-- R98, R100: reg-sub and reg-subn with not-borrow, written last. -/
def Obligations.SubtractSetsNotBorrow : Prop :=
  ∀ (x y : RegIx) (s : State),
    decodeOpcode (0x8#4 ++ x ++ y ++ 0x5#4) = .regSub x y ∧ decodeOpcode (0x8#4 ++ x ++ y ++ 0x7#4) = .regSubn x y ∧
    (∃ t, exec (.regSub x y) s = .next t ∧
      RegFlagWrite x (BitVec.ofInt 8 ((getV s x).toNat - (getV s y).toNat : Int))
        (if (getV s x).toNat ≥ (getV s y).toNat then 1 else 0) s t) ∧
    (∃ t, exec (.regSubn x y) s = .next t ∧
      RegFlagWrite x (BitVec.ofInt 8 ((getV s y).toNat - (getV s x).toNat : Int))
        (if (getV s y).toNat ≥ (getV s x).toNat then 1 else 0) s t)

/-- R99, R101: the shifts shift Vx by one and give the bit shifted out, written last; Vy is not read. -/
def Obligations.ShiftsSetShiftedOutBit : Prop :=
  ∀ (x y : RegIx) (s : State),
    decodeOpcode (0x8#4 ++ x ++ y ++ 0x6#4) = .regShr x y ∧ decodeOpcode (0x8#4 ++ x ++ y ++ 0xE#4) = .regShl x y ∧
    (∃ t, exec (.regShr x y) s = .next t ∧
      RegFlagWrite x (BitVec.ofNat 8 ((getV s x).toNat / 2)) (BitVec.ofNat 8 ((getV s x).toNat % 2)) s t) ∧
    (∃ t, exec (.regShl x y) s = .next t ∧
      RegFlagWrite x (BitVec.ofNat 8 ((getV s x).toNat * 2)) (BitVec.ofNat 8 ((getV s x).toNat / 128)) s t)

/-- R102: random gives a fresh draw AND nn. The draw is a free value (the spec's decision D8, log 3): this holds for every
value of it. -/
def Obligations.RandomIsMaskedDraw : Prop :=
  ∀ (x : RegIx) (nn : Byte) (s : State), decodeOpcode (0xC#4 ++ x ++ nn) = .random x nn ∧
    ∃ t, exec (.random x nn) s = .next t ∧ getV t x = Config.randomByte s.rng &&& nn ∧
      (∀ k < 8, nn.getLsbD k = false → (getV t x).getLsbD k = false) ∧ t.rng = s.rng + 1 ∧
      (∀ r, r ≠ x → getV t r = getV s r) ∧ SameBut [.regs, .rng] s t

/-! ## Index register and memory block (spec/43_memory_index.md) -/

/-- R103: load-index. -/
def Obligations.LoadIndexSetsI : Prop :=
  ∀ (nnn : Addr) (s : State), decodeOpcode (0xA#4 ++ nnn) = .loadIndex nnn ∧
    ∃ t, exec (.loadIndex nnn) s = .next t ∧ t.i.toNat = nnn.toNat ∧ SameBut [.index] s t

/-- R104: add-index wraps at 16 bits, the spec's decision D9 (log 8), and has no flag. -/
def Obligations.AddIndexWraps : Prop :=
  ∀ (x : RegIx) (s : State), decodeOpcode (0xF#4 ++ x ++ 0x1E#8) = .addIndex x ∧
    ∃ t, exec (.addIndex x) s = .next t ∧ t.i.toNat = (s.i.toNat + (getV s x).toNat) % 65536 ∧ SameBut [.index] s t

/-- R105: font-char points I at the glyph of the low nibble of Vx, below 0x200. -/
def Obligations.FontCharPointsAtGlyph : Prop :=
  ∀ (x : RegIx) (s : State), decodeOpcode (0xF#4 ++ x ++ 0x29#8) = .fontChar x ∧
    ∃ t, exec (.fontChar x) s = .next t ∧
      t.i.toNat = Config.fontBase.val + ((getV s x).toNat % 16) * 5 ∧ t.i.toNat < 0x200 ∧ SameBut [.index] s t

/-- R106: bcd writes the three decimal digits, or raises MemoryAccessViolation with the bytes it may write unspecified. I is
unchanged by the spec's decision D12 (log 12); the error as a next state is the model's choice (logs 4 and 5). -/
def Obligations.BcdWritesDigits : Prop :=
  ∀ (x : RegIx) (s : State), decodeOpcode (0xF#4 ++ x ++ 0x33#8) = .bcd x ∧
    (s.i.toNat + 2 ≤ 0xFFF →
      ∃ t, exec (.bcd x) s = .next t ∧
        (readMem t s.i.toNat).toNat = (getV s x).toNat / 100 ∧
        (readMem t (s.i.toNat + 1)).toNat = (getV s x).toNat / 10 % 10 ∧
        (readMem t (s.i.toNat + 2)).toNat = (getV s x).toNat % 10 ∧
        (∀ a, (a < s.i.toNat ∨ s.i.toNat + 2 < a) → readMem t a = readMem s a) ∧ SameBut [.memory] s t) ∧
    (s.i.toNat + 2 > 0xFFF →
      ∃ t, exec (.bcd x) s = .next t ∧ t.fault = some .memoryAccessViolation ∧
        (∀ a, (a < s.i.toNat ∨ s.i.toNat + 2 < a) → readMem t a = readMem s a) ∧
        SameBut [.memory, .fault, .free] s t)

/-- R107: store-regs copies V0..Vx to memory from I on, or raises MemoryAccessViolation with the bytes it may write
unspecified. I is unchanged by the spec's decision D12 (log 12); the error as a next state is the model's choice (logs 4
and 5). -/
def Obligations.StoreRegsCopiesRegisters : Prop :=
  ∀ (x : RegIx) (s : State), decodeOpcode (0xF#4 ++ x ++ 0x55#8) = .storeRegs x ∧
    (s.i.toNat + x.toNat ≤ 0xFFF →
      ∃ t, exec (.storeRegs x) s = .next t ∧
        (∀ r : RegIx, r.toNat ≤ x.toNat → readMem t (s.i.toNat + r.toNat) = getV s r) ∧
        (∀ a, (a < s.i.toNat ∨ s.i.toNat + x.toNat < a) → readMem t a = readMem s a) ∧ SameBut [.memory] s t) ∧
    (s.i.toNat + x.toNat > 0xFFF →
      ∃ t, exec (.storeRegs x) s = .next t ∧ t.fault = some .memoryAccessViolation ∧
        (∀ a, (a < s.i.toNat ∨ s.i.toNat + x.toNat < a) → readMem t a = readMem s a) ∧
        SameBut [.memory, .fault, .free] s t)

/-- R108: load-regs copies memory from I on to V0..Vx, or raises MemoryAccessViolation with those registers unspecified. I is
unchanged by the spec's decision D12 (log 12); the error as a next state is the model's choice (logs 4 and 5). -/
def Obligations.LoadRegsCopiesMemory : Prop :=
  ∀ (x : RegIx) (s : State), decodeOpcode (0xF#4 ++ x ++ 0x65#8) = .loadRegs x ∧
    (s.i.toNat + x.toNat ≤ 0xFFF →
      ∃ t, exec (.loadRegs x) s = .next t ∧
        (∀ r : RegIx, r.toNat ≤ x.toNat → getV t r = readMem s (s.i.toNat + r.toNat)) ∧
        (∀ r : RegIx, x.toNat < r.toNat → getV t r = getV s r) ∧ SameBut [.regs] s t) ∧
    (s.i.toNat + x.toNat > 0xFFF →
      ∃ t, exec (.loadRegs x) s = .next t ∧ t.fault = some .memoryAccessViolation ∧
        (∀ r : RegIx, x.toNat < r.toNat → getV t r = getV s r) ∧ SameBut [.regs, .fault, .free] s t)

/-- What store-regs puts in memory is what a fetch there reads, and load-regs takes a stored opcode apart (R46, derived by
the spec). -/
def Obligations.StoredRegistersAreFetched : Prop :=
  ∀ (x : RegIx) (s : State), 1 ≤ x.toNat → s.i.toNat + x.toNat ≤ 0xFFF →
    (∃ t, exec (.storeRegs x) s = .next t ∧ fetch t s.i.toNat = some (getV s 0x0#4 ++ getV s 0x1#4)) ∧
    (∃ t, exec (.loadRegs x) s = .next t ∧ fetch s s.i.toNat = some (getV t 0x0#4 ++ getV t 0x1#4))

/-! ## Display (spec/44_display.md) -/

/-- R109: clear-screen zeroes every cell and nothing else. -/
def Obligations.ClearScreenZeroesDisplay : Prop :=
  ∀ s : State, decodeOpcode 0x00E0#16 = .clearScreen ∧
    ∃ t, exec .clearScreen s = .next t ∧ (∀ k < 2048, cell t k = false) ∧ SameBut [.display] s t

/-- R110: draw-sprite complements exactly the cells under set sprite bits and sets VF when one of them was 1; it raises
MemoryAccessViolation when rows lie above 0xFFF, with VF and the cells under the sprite unspecified. Bit order, coordinates
read before the clear, and n = 0 are the spec's decisions D5, D11, D20 (logs 9, 6, 13); the error as a next state is the
model's choice (logs 4 and 5). -/
def Obligations.DrawXorsSprite : Prop :=
  ∀ (x y : RegIx) (n : BitVec 4) (s : State), decodeOpcode (0xD#4 ++ x ++ y ++ n) = .drawSprite x y n ∧
    (¬ (n.toNat > 0 ∧ s.i.toNat + n.toNat - 1 > 0xFFF) →
      ∃ t, exec (.drawSprite x y n) s = .next t ∧
        (∀ k < 2048, SpriteCovers s x y n.toNat k → cell t k = !cell s k) ∧
        (∀ k < 2048, ¬ SpriteCovers s x y n.toNat k → cell t k = cell s k) ∧
        ((∃ k < 2048, SpriteCovers s x y n.toNat k ∧ cell s k = true) → getV t 0xF#4 = 1) ∧
        ((¬ ∃ k < 2048, SpriteCovers s x y n.toNat k ∧ cell s k = true) → getV t 0xF#4 = 0) ∧
        (∀ r, r ≠ 0xF#4 → getV t r = getV s r) ∧ SameBut [.regs, .display] s t) ∧
    (n.toNat > 0 ∧ s.i.toNat + n.toNat - 1 > 0xFFF →
      ∃ t, exec (.drawSprite x y n) s = .next t ∧ t.fault = some .memoryAccessViolation ∧
        (∀ k < 2048, ¬ SpriteArea s x y n.toNat k → cell t k = cell s k) ∧
        (∀ r, r ≠ 0xF#4 → getV t r = getV s r) ∧ SameBut [.regs, .display, .fault, .free] s t)

/-- One draw never hits the same cell twice (R111, derived by the spec). -/
def Obligations.SpriteCellsAreDistinct : Prop :=
  ∀ (cx cy : Nat) (rows : List Byte), rows.length ≤ 15 → (spriteCells cx cy 0 rows).Nodup

/-- Drawing the same sprite twice at the same place restores the display; the first draw collides when some covered cell was
1, the second when some covered cell was 0 (R111, derived by the spec). The coordinates must not be in VF, which a draw
writes. Which cells are covered rests on D5 and D20 (logs 9, 13). -/
def Obligations.DrawTwiceRestoresDisplay : Prop :=
  ∀ (x y : RegIx) (n : BitVec 4) (s : State), x ≠ 0xF#4 → y ≠ 0xF#4 →
    ¬ (n.toNat > 0 ∧ s.i.toNat + n.toNat - 1 > 0xFFF) →
    ∃ t u, exec (.drawSprite x y n) s = .next t ∧ exec (.drawSprite x y n) t = .next u ∧
      (∀ k < 2048, cell u k = cell s k) ∧
      (getV t 0xF#4 = 1 ↔ ∃ k < 2048, SpriteCovers s x y n.toNat k ∧ cell s k = true) ∧
      (getV u 0xF#4 = 1 ↔ ∃ k < 2048, SpriteCovers s x y n.toNat k ∧ cell s k = false)

/-- A draw changes as many cells as the sprite has set bits (R111, derived by the spec). Which rows there are rests on D5
and D20 (logs 9, 13). -/
def Obligations.DrawChangesOneCellPerSetBit : Prop :=
  ∀ (x y : RegIx) (n : BitVec 4) (s : State), ¬ (n.toNat > 0 ∧ s.i.toNat + n.toNat - 1 > 0xFFF) →
    ∃ t, exec (.drawSprite x y n) s = .next t ∧
      (List.range 2048).countP (fun k => cell t k != cell s k) =
        ((List.range n.toNat).map fun r => setBits (readMem s (s.i.toNat + r))).sum

/-! ## Timers and input (spec/45_timers_input.md) -/

/-- R112: skip-key-down tests the key of the low nibble of Vx. -/
def Obligations.SkipKeyDownTestsKey : Prop :=
  ∀ (x : RegIx) (s : State), decodeOpcode (0xE#4 ++ x ++ 0x9E#8) = .skipKeyDown x ∧
    ∃ t, exec (.skipKeyDown x) s = .next t ∧
      t.pc = (if s.keys.getLsbD ((getV s x).toNat % 16) = true then s.pc + 2 else s.pc) ∧ SameBut [.pc] s t

/-- R113: skip-key-up tests the same key; that its index is the low nibble here too is the spec's derivation. -/
def Obligations.SkipKeyUpTestsKey : Prop :=
  ∀ (x : RegIx) (s : State), decodeOpcode (0xE#4 ++ x ++ 0xA1#8) = .skipKeyUp x ∧
    ∃ t, exec (.skipKeyUp x) s = .next t ∧
      t.pc = (if s.keys.getLsbD ((getV s x).toNat % 16) = false then s.pc + 2 else s.pc) ∧ SameBut [.pc] s t

/-- R114: get-delay. -/
def Obligations.GetDelayReadsTimer : Prop :=
  ∀ (x : RegIx) (s : State), decodeOpcode (0xF#4 ++ x ++ 0x07#8) = .getDelay x ∧
    ∃ t, exec (.getDelay x) s = .next t ∧ RegWrite x s.dt s t

/-- R115: wait-key rewinds PC while no key is held, else gives the lowest held key. -/
def Obligations.WaitKeyTakesLowestKey : Prop :=
  ∀ (x : RegIx) (s : State), decodeOpcode (0xF#4 ++ x ++ 0x0A#8) = .waitKey x ∧
    (s.keys = 0 → ∃ t, exec (.waitKey x) s = .next t ∧ t.pc = s.pc - 2 ∧ SameBut [.pc] s t) ∧
    (s.keys ≠ 0 → ∃ t k, exec (.waitKey x) s = .next t ∧ k < 16 ∧ s.keys.getLsbD k = true ∧
      (∀ j < k, s.keys.getLsbD j = false) ∧ RegWrite x (BitVec.ofNat 8 k) s t)

/-- R116, R117: set-delay and set-sound; the sound is active exactly while ST is not 0. -/
def Obligations.SetTimersWriteTimers : Prop :=
  ∀ (x : RegIx) (s : State),
    decodeOpcode (0xF#4 ++ x ++ 0x15#8) = .setDelay x ∧ decodeOpcode (0xF#4 ++ x ++ 0x18#8) = .setSound x ∧
    (∃ t, exec (.setDelay x) s = .next t ∧ t.dt = getV s x ∧ SameBut [.delay] s t) ∧
    (∃ t, exec (.setSound x) s = .next t ∧ t.st = getV s x ∧ soundActive t = decide (0 < (getV s x).toNat) ∧
      SameBut [.sound] s t)

/-- After set-delay, d decrements and get-delay, the register holds the value less d, floored at 0 (R161, derived by the
spec). -/
def Obligations.DelayReadsBackCountedDown : Prop :=
  ∀ (x y : RegIx) (d : Nat) (s : State),
    ∃ t u, exec (.setDelay x) s = .next t ∧ exec (.getDelay y) (decrementTimers^[d] t) = .next u ∧
      (getV u y).toNat = (getV s x).toNat - d

/-! ## The machine as a whole -/

/-- The invariant holds after construction. The canonical form of memory is the model's representation (log 18). -/
def Obligations.ResetMeetsInvariant : Prop := StateInv State.reset

/-- Every step keeps the invariant, from every state that meets it: memory stays canonical, PC stays at most 0x10FE and every
return address at most 0x1000 (R22, derived by the spec, with its decision D10, log 10). The canonical form is the model's
representation (log 18). -/
def Obligations.StepKeepsInvariant : Prop :=
  ∀ s t : State, StateInv s → step s = .next t → StateInv t

/-- PC after every step that returns Ok, instruction by instruction (the table of R21, with decisions D10 and D13, logs 10
and 11). -/
def Obligations.PcAfterStep : Prop :=
  ∀ s t : State, step s = .next t → t.fault = none → t.pc = pcAfter (decodeOpcode (opcodeAtPc s)) s.pc s

/-- R35: the six flag writers and their flags, and that no other instruction writes VF except as its destination.
Which cells a sprite covers rests on the spec's decisions D5, D11 and D20 (logs 9, 6, 13). -/
def Obligations.FlagWriters : Prop :=
  (∀ (x y : RegIx) (s : State),
    (∃ t, exec (.regAdd x y) s = .next t ∧
      getV t 0xF#4 = if (getV s x).toNat + (getV s y).toNat > 255 then 1 else 0) ∧
    (∃ t, exec (.regSub x y) s = .next t ∧ getV t 0xF#4 = if (getV s x).toNat ≥ (getV s y).toNat then 1 else 0) ∧
    (∃ t, exec (.regSubn x y) s = .next t ∧ getV t 0xF#4 = if (getV s y).toNat ≥ (getV s x).toNat then 1 else 0) ∧
    (∃ t, exec (.regShr x y) s = .next t ∧ getV t 0xF#4 = if (getV s x).getLsbD 0 then 1 else 0) ∧
    (∃ t, exec (.regShl x y) s = .next t ∧ getV t 0xF#4 = if (getV s x).getLsbD 7 then 1 else 0)) ∧
  (∀ (x y : RegIx) (n : BitVec 4) (s : State), ¬ (n.toNat > 0 ∧ s.i.toNat + n.toNat - 1 > 0xFFF) →
    ∃ t, exec (.drawSprite x y n) s = .next t ∧
      (getV t 0xF#4 = 1 ∨ getV t 0xF#4 = 0) ∧
      (getV t 0xF#4 = 1 ↔ ∃ k < 2048, SpriteCovers s x y n.toNat k ∧ cell s k = true)) ∧
  (∀ (i : Instr) (s t : State), exec i s = .next t → ¬ Writes i 0xF#4 → getV t 0xF#4 = getV s 0xF#4)

/-- Each instruction writes only the registers that R18 lists for it and only the parts of the state that the state summary
of spec/10_state.md lists for it; FAULT is written only when a row of the error table says so (log 4). -/
def Obligations.OnlyListedPartsAreWritten : Prop :=
  ∀ (i : Instr) (s t : State), exec i s = .next t →
    (∀ r, ¬ Writes i r → getV t r = getV s r) ∧ SameBut (partsWritten i ++ [.fault, .free]) s t ∧
    ((∀ e, ¬ Raises i s e) → t.fault = s.fault ∧ t.free = s.free)

/-- R118: no step counts a timer down: a step leaves DT and ST alone but for set-delay and set-sound, and of the other host
operations only decrementTimers changes them. -/
def Obligations.OnlyTheHostCountsTimers : Prop :=
  (∀ s t : State, step s = .next t →
    (t.dt = s.dt ∨ ∃ x, decodeOpcode (opcodeAtPc s) = .setDelay x ∧ t.dt = getV s x) ∧
    (t.st = s.st ∨ ∃ x, decodeOpcode (opcodeAtPc s) = .setSound x ∧ t.st = getV s x)) ∧
  (∀ op S S' reply, Session.call op S = .next (S', reply) → op ≠ .step → op ≠ .decrementTimers →
    S'.core.dt = S.core.dt ∧ S'.core.st = S.core.st)

/-- No step changes KEYS (R162, derived by the spec). -/
def Obligations.StepNeverChangesKeys : Prop := ∀ s t : State, step s = .next t → t.keys = s.keys

/-- The error table of R134: a step on a CORE that is not halted always gives a next state, and raises exactly what the table
says; the codes are the spec's decision D7, and the Err as the next state's FAULT is the model's choice (log 4). -/
def Obligations.StepRaisesExactlyTheTable : Prop :=
  (∀ s : State, s.fault = none →
    ∃ t, step s = .next t ∧ ∀ e, t.fault = some e ↔
      (0xFFE < s.pc.toNat ∧ e = .memoryAccessViolation) ∨
      (s.pc.toNat ≤ 0xFFE ∧ Raises (decodeOpcode (opcodeAtPc s)) s e)) ∧
  RuntimeError.code .memoryAccessViolation = 1 ∧ RuntimeError.code .stackOverflow = 2 ∧
  RuntimeError.code .stackUnderflow = 3

/-- R137: what a step that raises an error leaves unchanged. A fetch error changes nothing but FAULT; an execute error leaves
PC = PCa + 2 and everything outside the instruction's write set as it was. This is the spec's decision D6; the model's own
counter of free values may advance (log 5). -/
def Obligations.StateAfterError : Prop :=
  ∀ (s t : State) (e : RuntimeError), step s = .next t → t.fault = some e →
    (0xFFE < s.pc.toNat → t = { s with fault := some e }) ∧
    (s.pc.toNat ≤ 0xFFE → t.pc = s.pc + 2 ∧
      (∀ x y n, decodeOpcode (opcodeAtPc s) = .drawSprite x y n →
        (∀ r, r ≠ 0xF#4 → getV t r = getV s r) ∧
        (∀ k < 2048, ¬ SpriteArea s x y n.toNat k → cell t k = cell s k) ∧
        SameBut [.pc, .regs, .display, .fault, .free] s t) ∧
      (∀ x, decodeOpcode (opcodeAtPc s) = .bcd x →
        (∀ a, (a < s.i.toNat ∨ s.i.toNat + 2 < a) → readMem t a = readMem s a) ∧
        SameBut [.pc, .memory, .fault, .free] s t) ∧
      (∀ x, decodeOpcode (opcodeAtPc s) = .storeRegs x →
        (∀ a, (a < s.i.toNat ∨ s.i.toNat + x.toNat < a) → readMem t a = readMem s a) ∧
        SameBut [.pc, .memory, .fault, .free] s t) ∧
      (∀ x, decodeOpcode (opcodeAtPc s) = .loadRegs x →
        (∀ r : RegIx, x.toNat < r.toNat → getV t r = getV s r) ∧ SameBut [.pc, .regs, .fault, .free] s t) ∧
      (decodeOpcode (opcodeAtPc s) = .ret → SameBut [.pc, .fault] s t) ∧
      (∀ nnn, decodeOpcode (opcodeAtPc s) = .call nnn → SameBut [.pc, .fault] s t))

/-- R139: a halted CORE has no step, no host operation clears FAULT, and the other operations still answer. This is the
spec's decision D6. -/
def Obligations.HaltedCoreStaysHalted : Prop :=
  ∀ (S : Session) (e : RuntimeError), S.core.fault = some e →
    Session.call .step S = .fault (.halted e) ∧
    (∀ op S' reply, Session.call op S = .next (S', reply) → S'.core.fault = some e) ∧
    (∀ op, op ≠ .step → (∀ bytes, op ≠ .load bytes) → ∃ S' reply, Session.call op S = .next (S', reply))

/-- R132 (b): a jump to itself and a wait-key with no key held are quiescent. Quiescence is the spec's decision D23. -/
def Obligations.QuiescentStates : Prop :=
  ∀ s : State, s.fault = none → s.pc.toNat ≤ 0xFFE →
    (∀ nnn, decodeOpcode (opcodeAtPc s) = .jump nnn → nnn.toNat = s.pc.toNat → Quiescent s) ∧
    (∀ x, decodeOpcode (opcodeAtPc s) = .waitKey x → s.keys = 0 → Quiescent s)

/-- Memories in canonical form that read the same everywhere are the same data (the model's representation, log 18). -/
def Obligations.EqualReadsGiveEqualMemories : Prop :=
  ∀ m m' : Memory, m.wf = true → m'.wf = true → (∀ a < 4096, m.read a = m'.read a) → m = m'

/-! ## Host operations (spec/45_timers_input.md, spec/46_host_interface.md) -/

/-- R120: decrementTimers counts each timer down to 0 and no further, and changes nothing else, whether or not the CORE is
halted (the spec's decision D6). -/
def Obligations.DecrementTimersSaturates : Prop :=
  ∀ S : Session, ∃ t, Session.call .decrementTimers S = .next ({ S with core := t }, .done) ∧
    t.dt.toNat = S.core.dt.toNat - 1 ∧ t.st.toNat = S.core.st.toNat - 1 ∧ SameBut [.delay, .sound] S.core t

/-- R121, R122: pressKey sets and releaseKey clears the bit of key k; a k above 0xF changes nothing. -/
def Obligations.KeyOperationsSetAndClear : Prop :=
  ∀ (k : Byte) (S : Session),
    (∃ t, Session.call (.pressKey k) S = .next ({ S with core := t }, .done) ∧ SameBut [.keys] S.core t ∧
      (0xF < k.toNat → t = S.core) ∧
      (k.toNat ≤ 0xF → ∀ j < 16, t.keys.getLsbD j = if j = k.toNat then true else S.core.keys.getLsbD j)) ∧
    (∃ t, Session.call (.releaseKey k) S = .next ({ S with core := t }, .done) ∧ SameBut [.keys] S.core t ∧
      (0xF < k.toNat → t = S.core) ∧
      (k.toNat ≤ 0xF → ∀ j < 16, t.keys.getLsbD j = if j = k.toNat then false else S.core.keys.getLsbD j))

/-- R124: load copies at most 3584 bytes to 0x200 on, refuses more with TooLarge and no change, and is admitted only before
the first step (the spec's decision D15, log 15). -/
def Obligations.LoadCopiesProgram : Prop :=
  ∀ (bytes : List Byte) (S : Session),
    (S.stepped = true → Session.call (.load bytes) S = .refused .loadAfterStep) ∧
    (S.stepped = false → bytes.length > 3584 → Session.call (.load bytes) S = .next (S, .loadErr .tooLarge)) ∧
    (S.stepped = false → bytes.length ≤ 3584 →
      ∃ t, Session.call (.load bytes) S = .next ({ S with core := t }, .ok) ∧
        (∀ j (h : j < bytes.length), readMem t (0x200 + j) = bytes[j]) ∧
        (∀ a, (a < 0x200 ∨ 0x200 + bytes.length ≤ a) → readMem t a = readMem S.core a) ∧
        SameBut [.memory] S.core t)

/-- R126, R127: getDisplay views cell k as DISPLAY[k], at column k mod 64 and row k / 64, getSoundTimer gives ST, and neither
changes the state. -/
def Obligations.GettersReadState : Prop :=
  ∀ S : Session,
    (∃ view, Session.call .getDisplay S = .next (S, .cells view) ∧
      ∀ X Y : Nat, X < 64 → (hY : Y < 32) → view.toList[Y * 64 + X]? = some (S.core.display[Y].getLsbD X)) ∧
    Session.call .getSoundTimer S = .next (S, .sound S.core.st)

/-- Every host operation keeps the invariant, whose canonical form of memory is the model's representation (log 18). -/
def Obligations.HostOperationsKeepInvariant : Prop :=
  ∀ (op : HostOp) (S S' : Session) (reply : Reply), StateInv S.core → Session.call op S = .next (S', reply) → StateInv S'.core

/-- Whatever the host does after construction, the invariant holds (the canonical form of memory in it is the model's
representation, log 18), and until the first step everything but memory and KEYS is as constructed, so a launch state is the
constructed state with the image loaded (R154, the spec's decision D15, log 15). -/
def Obligations.EveryReachedSessionIsSound : Prop :=
  ∀ S : Session, Reached S → StateInv S.core ∧
    (S.stepped = false → SameBut [.memory, .keys] State.reset S.core)
end

