-- ==== Sys2Proof/Laws/Display.lean ====
section
/-! SUPPORT. What the display operations do to each cell. -/

namespace Sys2Proof.Machine

/-- Displays are equal when every cell is (spec/10_state.md R31). -/
theorem display_ext {d e : Display} (h : ∀ k < 2048, cellAt d k = cellAt e k) : d = e := by
  apply Vector.ext
  intro y hy
  apply BitVec.eq_of_getLsbD_eq
  intro x hx
  have := h (y * 64 + x) (by omega)
  have hd : (y * 64 + x) / 64 = y := by omega
  have hm : (y * 64 + x) % 64 = x := by omega
  simpa [cellAt, hd, hm, hy] using this

/-- Every cell of the blank display is 0. -/
@[simp] theorem cellAt_blankDisplay (k : Nat) : cellAt blankDisplay k = false := by
  simp [cellAt, blankDisplay]

/-- Complementing a cell changes that cell and no other. -/
theorem cellAt_flipCell (d : Display) {k : Nat} (hk : k < 2048) (j : Nat) :
    cellAt (flipCell d k) j = if j = k then !cellAt d k else cellAt d j := by
  have hk' : k / 64 < 32 := by omega
  unfold flipCell cellAt
  rw [dif_pos hk']
  by_cases hj : j / 64 < 32
  · rw [dif_pos hj, dif_pos hk', dif_pos hj, Vector.getElem_set]
    by_cases hr : k / 64 = j / 64
    · have hb : j % 64 < 64 := Nat.mod_lt _ (by omega)
      simp only [hr, if_true, BitVec.getLsbD_xor, BitVec.getLsbD_shiftLeft, BitVec.getLsbD_one]
      by_cases hjk : j = k
      · subst hjk; simp [hb]
      · have : j % 64 ≠ k % 64 := by omega
        simp only [hjk, if_false]
        by_cases hlt : j % 64 < k % 64
        · simp [hlt]
        · have : j % 64 - k % 64 ≠ 0 := by omega
          simp [this]
    · have : j ≠ k := by rintro rfl; exact hr rfl
      simp [hr, this]
  · have : j ≠ k := by omega
    simp [hj, this]

/-- The cell a sprite bit falls on lies on the display. -/
theorem cellIndex_lt (cx cy r c : Nat) : cellIndex cx cy r c < 2048 := by unfold cellIndex; omega

/-- The cells under the set bits of one row. -/
theorem mem_rowCells {cx cy r : Nat} {row : Byte} {k : Nat} :
    k ∈ rowCells cx cy r row ↔ ∃ c < 8, row.getLsbD (7 - c) = true ∧ k = cellIndex cx cy r c := by
  simp only [rowCells, List.mem_map, List.mem_filter, List.mem_range]
  constructor
  · rintro ⟨c, ⟨hc, hb⟩, rfl⟩; exact ⟨c, hc, hb, rfl⟩
  · rintro ⟨c, hc, hb, rfl⟩; exact ⟨c, ⟨hc, hb⟩, rfl⟩

/-- The cells under the set bits of the sprite rows. -/
theorem mem_spriteCells {cx cy r : Nat} {rows : List Byte} {k : Nat} :
    k ∈ spriteCells cx cy r rows ↔
      ∃ j, ∃ h : j < rows.length, ∃ c < 8, rows[j].getLsbD (7 - c) = true ∧ k = cellIndex cx cy (r + j) c := by
  induction rows generalizing r with
  | nil => simp [spriteCells]
  | cons row rows ih =>
    simp only [spriteCells, List.mem_append, mem_rowCells, ih]
    constructor
    · rintro (⟨c, hc, hb, rfl⟩ | ⟨j, hj, c, hc, hb, rfl⟩)
      · exact ⟨0, by simp, c, hc, hb, rfl⟩
      · exact ⟨j + 1, by simpa using hj, c, hc, hb, by congr 1; omega⟩
    · rintro ⟨j, hj, c, hc, hb, rfl⟩
      cases j with
      | zero => exact .inl ⟨c, hc, hb, rfl⟩
      | succ j =>
        exact .inr ⟨j, by simpa using hj, c, hc, hb, by congr 1; omega⟩

theorem spriteCells_lt {cx cy r : Nat} {rows : List Byte} : ∀ k ∈ spriteCells cx cy r rows, k < 2048 := by
  intro k hk
  obtain ⟨_, _, _, _, _, rfl⟩ := mem_spriteCells.mp hk
  exact cellIndex_lt ..

/-- The inner loop of a draw complements a cell once for each time it meets it. -/
theorem cellAt_flipCells {ks : List Nat} (hks : ∀ k ∈ ks, k < 2048) (d : Display) (j : Nat) :
    cellAt (flipCells ks d).1 j = (cellAt d j ^^ decide (ks.count j % 2 = 1)) := by
  induction ks generalizing d with
  | nil => simp [flipCells]
  | cons k ks ih =>
    simp only [List.mem_cons, forall_eq_or_imp] at hks
    simp only [flipCells, ih hks.2, cellAt_flipCell d hks.1, List.count_cons]
    by_cases hjk : j = k
    · subst hjk
      simp only [if_true, beq_self_eq_true]
      rcases Nat.mod_two_eq_zero_or_one (ks.count j) with h | h
      · have : (ks.count j + 1) % 2 = 1 := by omega
        simp [h, this]
      · have : (ks.count j + 1) % 2 = 0 := by omega
        simp [h, this]
    · have : (k == j) = false := by simpa using fun h => hjk h.symm
      simp [hjk, this]

/-- When no cell is met twice, the inner loop reports a collision exactly when it meets a cell that was 1 before it. -/
theorem flipCells_collision {ks : List Nat} (hks : ∀ k ∈ ks, k < 2048) (hn : ks.Nodup) (d : Display) :
    (flipCells ks d).2 = true ↔ ∃ k ∈ ks, cellAt d k = true := by
  induction ks generalizing d with
  | nil => simp [flipCells]
  | cons k ks ih =>
    simp only [List.mem_cons, forall_eq_or_imp] at hks
    rw [List.nodup_cons] at hn
    simp only [flipCells, Bool.or_eq_true, ih hks.2 hn.2, List.mem_cons, exists_eq_or_imp]
    refine or_congr Iff.rfl (exists_congr fun j => and_congr_right fun hj => ?_)
    have : j ≠ k := by rintro rfl; exact hn.1 hj
    simp [cellAt_flipCell d hks.1, this]

/-- A cell no free value goes into is left alone. -/
theorem cellAt_freeCells {ks : List Nat} (hks : ∀ k ∈ ks, k < 2048) (base : Nat) (d : Display) {j : Nat} (hj : j ∉ ks) :
    cellAt (freeCells base ks d) j = cellAt d j := by
  induction ks generalizing base d with
  | nil => rfl
  | cons k ks ih =>
    simp only [List.mem_cons, forall_eq_or_imp, not_or] at hks hj
    simp only [freeCells, ih hks.2 _ _ hj.2]
    split
    · rfl
    · simp [cellAt_flipCell d hks.1, hj.1]

/-- The cells under a sprite of n rows. -/
theorem mem_areaCells {cx cy n k : Nat} :
    k ∈ areaCells cx cy n ↔ ∃ r < n, ∃ c < 8, k = cellIndex cx cy r c := by
  simp only [areaCells, List.mem_flatMap, List.mem_map, List.mem_range]
  constructor
  · rintro ⟨r, hr, c, hc, rfl⟩; exact ⟨r, hr, c, hc, rfl⟩
  · rintro ⟨r, hr, c, hc, rfl⟩; exact ⟨r, hr, c, hc, rfl⟩

theorem areaCells_lt {cx cy n : Nat} : ∀ k ∈ areaCells cx cy n, k < 2048 := by
  intro k hk
  obtain ⟨_, _, _, _, rfl⟩ := mem_areaCells.mp hk
  exact cellIndex_lt ..

end Sys2Proof.Machine
end

