-- ==== Sys2Proof/Laws/Encoding.lean ====
section
/-! SUPPORT. The fields of a packed opcode, format by format (spec/30_encoding.md R58, R59), and the bytes of an opcode. -/

namespace Sys2Proof

/-! ## Bits of a packed opcode -/

theorem getLsbD_packA (c : BitVec 4) (nnn : Addr) (i : Nat) :
    (packA c nnn).getLsbD i = if i < 12 then nnn.getLsbD i else c.getLsbD (i - 12) :=
  BitVec.getLsbD_append (x := c) (y := nnn)

theorem getLsbD_packXK (c : BitVec 4) (x : RegIx) (nn : Byte) (i : Nat) :
    (packXK c x nn).getLsbD i =
      if i < 8 then nn.getLsbD i else if i - 8 < 4 then x.getLsbD (i - 8) else c.getLsbD (i - 8 - 4) := by
  have h := BitVec.getLsbD_append (x := c ++ x) (y := nn) (i := i)
  rw [BitVec.getLsbD_append (x := c) (y := x)] at h
  exact h

theorem getLsbD_packXY (c : BitVec 4) (x y : RegIx) (n : BitVec 4) (i : Nat) :
    (packXY c x y n).getLsbD i =
      if i < 4 then n.getLsbD i else if i - 4 < 4 then y.getLsbD (i - 4)
        else if i - 4 - 4 < 4 then x.getLsbD (i - 4 - 4) else c.getLsbD (i - 4 - 4 - 4) := by
  have h := BitVec.getLsbD_append (x := c ++ x ++ y) (y := n) (i := i)
  rw [BitVec.getLsbD_append (x := c ++ x) (y := y), BitVec.getLsbD_append (x := c) (y := x)] at h
  exact h

/-! ## Fields of a packed opcode -/

@[simp] theorem opC_packA (c : BitVec 4) (nnn : Addr) : opC (packA c nnn) = c := by
  apply BitVec.eq_of_getLsbD_eq; intro i h
  rw [opC, BitVec.getLsbD_extractLsb', getLsbD_packA, if_neg (by omega), show 12 + i - 12 = i by omega]; simp [h]

@[simp] theorem opNNN_packA (c : BitVec 4) (nnn : Addr) : opNNN (packA c nnn) = nnn := by
  apply BitVec.eq_of_getLsbD_eq; intro i h
  rw [opNNN, BitVec.getLsbD_extractLsb', getLsbD_packA, if_pos (by omega), show 0 + i = i by omega]; simp [h]

@[simp] theorem opC_packXK (c : BitVec 4) (x : RegIx) (nn : Byte) : opC (packXK c x nn) = c := by
  apply BitVec.eq_of_getLsbD_eq; intro i h
  rw [opC, BitVec.getLsbD_extractLsb', getLsbD_packXK, if_neg (by omega), if_neg (by omega), show 12 + i - 8 - 4 = i by omega]; simp [h]

@[simp] theorem opX_packXK (c : BitVec 4) (x : RegIx) (nn : Byte) : opX (packXK c x nn) = x := by
  apply BitVec.eq_of_getLsbD_eq; intro i h
  rw [opX, BitVec.getLsbD_extractLsb', getLsbD_packXK, if_neg (by omega), if_pos (by omega), show 8 + i - 8 = i by omega]; simp [h]

@[simp] theorem opNN_packXK (c : BitVec 4) (x : RegIx) (nn : Byte) : opNN (packXK c x nn) = nn := by
  apply BitVec.eq_of_getLsbD_eq; intro i h
  rw [opNN, BitVec.getLsbD_extractLsb', getLsbD_packXK, if_pos (by omega), show 0 + i = i by omega]; simp [h]

@[simp] theorem opC_packXY (c : BitVec 4) (x y : RegIx) (n : BitVec 4) : opC (packXY c x y n) = c := by
  apply BitVec.eq_of_getLsbD_eq; intro i h
  rw [opC, BitVec.getLsbD_extractLsb', getLsbD_packXY, if_neg (by omega), if_neg (by omega), if_neg (by omega), show 12 + i - 4 - 4 - 4 = i by omega]; simp [h]

@[simp] theorem opX_packXY (c : BitVec 4) (x y : RegIx) (n : BitVec 4) : opX (packXY c x y n) = x := by
  apply BitVec.eq_of_getLsbD_eq; intro i h
  rw [opX, BitVec.getLsbD_extractLsb', getLsbD_packXY, if_neg (by omega), if_neg (by omega), if_pos (by omega), show 8 + i - 4 - 4 = i by omega]; simp [h]

@[simp] theorem opY_packXY (c : BitVec 4) (x y : RegIx) (n : BitVec 4) : opY (packXY c x y n) = y := by
  apply BitVec.eq_of_getLsbD_eq; intro i h
  rw [opY, BitVec.getLsbD_extractLsb', getLsbD_packXY, if_neg (by omega), if_pos (by omega), show 4 + i - 4 = i by omega]; simp [h]

@[simp] theorem opN_packXY (c : BitVec 4) (x y : RegIx) (n : BitVec 4) : opN (packXY c x y n) = n := by
  apply BitVec.eq_of_getLsbD_eq; intro i h
  rw [opN, BitVec.getLsbD_extractLsb', getLsbD_packXY, if_pos (by omega), show 0 + i = i by omega]; simp [h]

/-! ## An opcode is packed from its fields -/

theorem packA_fields (op : Opcode) : packA (opC op) (opNNN op) = op := by
  apply BitVec.eq_of_getLsbD_eq; intro i h
  rw [getLsbD_packA]
  simp only [opC, opNNN, BitVec.getLsbD_extractLsb']
  split
  · simp [*]
  · rw [show 12 + (i - 12) = i by omega]; simp; omega

theorem packXK_fields (op : Opcode) : packXK (opC op) (opX op) (opNN op) = op := by
  apply BitVec.eq_of_getLsbD_eq; intro i h
  rw [getLsbD_packXK]
  simp only [opC, opX, opNN, BitVec.getLsbD_extractLsb']
  split
  · simp [*]
  · split
    · rw [show 8 + (i - 8) = i by omega]; simp [*]
    · rw [show 12 + (i - 8 - 4) = i by omega]; simp; omega

theorem packXY_fields (op : Opcode) : packXY (opC op) (opX op) (opY op) (opN op) = op := by
  apply BitVec.eq_of_getLsbD_eq; intro i h
  rw [getLsbD_packXY]
  simp only [opC, opX, opY, opN, BitVec.getLsbD_extractLsb']
  split
  · simp [*]
  · split
    · rw [show 4 + (i - 4) = i by omega]; simp [*]
    · split
      · rw [show 8 + (i - 4 - 4) = i by omega]; simp [*]
      · rw [show 12 + (i - 4 - 4 - 4) = i by omega]; simp; omega

/-! ## Bytes (R45) -/

/-- The two bytes of an opcode make it again. -/
@[simp] theorem opcodeOfBytes_hi_lo (op : Opcode) : opcodeOfBytes (opcodeHi op) (opcodeLo op) = op := by
  apply BitVec.eq_of_getLsbD_eq; intro i h
  have e := BitVec.getLsbD_append (x := opcodeHi op) (y := opcodeLo op) (i := i)
  rw [show (opcodeOfBytes (opcodeHi op) (opcodeLo op)).getLsbD i = _ from e]
  simp only [opcodeHi, opcodeLo, BitVec.getLsbD_extractLsb']
  split
  · simp [*]
  · rw [show 8 + (i - 8) = i by omega]; simp; omega

end Sys2Proof
end

