-- ==== Sys2Proof/Laws/Memory.lean ====
section
/-! SUPPORT. What the memory operations do: reads after writes, and that every operation keeps the canonical form. -/

namespace Sys2Proof.Machine

/-! ## Reads after writes -/

theorem Memory.lookup_insert (a : Nat) (b : Byte) (m : Memory) (c : Nat) :
    Memory.lookup (Memory.insert a b m) c = if c = a then some b else Memory.lookup m c := by
  induction m with
  | nil => simp [Memory.insert, Memory.lookup, eq_comm]
  | cons p rest ih =>
    obtain ⟨k, d⟩ := p
    simp only [Memory.insert]
    by_cases hca : c = a
    · subst hca
      split
      · simp [Memory.lookup]
      · split
        · simp [Memory.lookup]
        · have : k ≠ c := by omega
          simp [Memory.lookup, ih, this]
    · have hac : a ≠ c := fun h => hca h.symm
      split
      · simp [Memory.lookup, hac]
      · split
        · have : k ≠ c := by omega
          simp [Memory.lookup, hac, this]
        · simp [Memory.lookup, ih, hca]

theorem Memory.lookup_erase (a : Nat) (m : Memory) (c : Nat) :
    Memory.lookup (Memory.erase a m) c = if c = a then none else Memory.lookup m c := by
  induction m with
  | nil => simp [Memory.erase, Memory.lookup]
  | cons p rest ih =>
    obtain ⟨k, d⟩ := p
    simp only [Memory.erase]
    by_cases hca : c = a
    · subst hca
      split
      · simp [ih]
      · simp [Memory.lookup, *]
    · split
      · have : k ≠ c := by omega
        simp [Memory.lookup, ih, hca, this]
      · simp [Memory.lookup, ih, hca]

/-- A write changes exactly the addressed byte (spec/20_memory.md R49). -/
theorem Memory.read_write (m : Memory) (a : Nat) (b : Byte) (c : Nat) :
    (m.write a b).read c = if c = a ∧ a < 4096 then b else m.read c := by
  unfold Memory.write Memory.read
  split
  · split
    · rw [Memory.lookup_erase]; split <;> simp_all
    · rw [Memory.lookup_insert]; split <;> simp_all
  · simp_all

/-- After a run of writes a byte of the run reads as written, and every other byte as before. -/
theorem Memory.read_writeAll (m : Memory) (a : Nat) (bs : List Byte) (c : Nat) :
    (m.writeAll a bs).read c =
      if h : a ≤ c ∧ c < a + bs.length ∧ c < 4096 then bs[c - a]'(by omega) else m.read c := by
  induction bs generalizing m a with
  | nil => simp [Memory.writeAll]; omega
  | cons b bs ih =>
    simp only [Memory.writeAll, ih, Memory.read_write, List.length_cons]
    by_cases h1 : c = a
    · subst h1
      by_cases h2 : c < 4096
      · rw [dif_neg (by omega), dif_pos (by omega)]; simp [h2]
      · rw [dif_neg (by omega), dif_neg (by omega)]; simp [h2]
    · by_cases h3 : a + 1 ≤ c ∧ c < a + 1 + bs.length ∧ c < 4096
      · rw [dif_pos h3, dif_pos (by omega)]
        have : c - a = (c - (a + 1)) + 1 := by omega
        simp [this]
      · rw [dif_neg h3, dif_neg (by omega)]; simp [h1]

theorem readMem_storeBytes (a : Nat) (bs : List Byte) (s : State) (c : Nat) :
    readMem (storeBytes a bs s) c =
      if h : a ≤ c ∧ c < a + bs.length ∧ c < 4096 then bs[c - a]'(by omega) else readMem s c :=
  Memory.read_writeAll s.mem a bs c

/-- Outside the bytes stored, memory reads as before. -/
theorem readMem_storeBytes_of_outside {a : Nat} {bs : List Byte} {s : State} {c : Nat}
    (h : c < a ∨ a + bs.length ≤ c) : readMem (storeBytes a bs s) c = readMem s c := by
  rw [readMem_storeBytes, dif_neg (by omega)]

/-- A stored byte reads as stored. -/
theorem readMem_storeBytes_of_inside {a : Nat} {bs : List Byte} {s : State} {k : Nat}
    (hk : k < bs.length) (ha : a + k < 4096) : readMem (storeBytes a bs s) (a + k) = bs[k] := by
  rw [readMem_storeBytes, dif_pos (by omega)]; simp

/-! ## The canonical form -/

theorem Memory.wfFrom_mono {lo lo' : Nat} (h : lo' ≤ lo) {m : Memory} (hm : Memory.wfFrom lo m = true) :
    Memory.wfFrom lo' m = true := by
  cases m with
  | nil => rfl
  | cons p rest =>
    simp only [Memory.wfFrom, Bool.and_eq_true, decide_eq_true_eq] at hm ⊢
    exact ⟨⟨⟨by omega, hm.1.1.2⟩, hm.1.2⟩, hm.2⟩

theorem Memory.wfFrom_insert {a : Nat} {b : Byte} (ha : a < 4096) (hb : b ≠ resetByte a) {lo : Nat} (hlo : lo ≤ a)
    {m : Memory} (hm : Memory.wfFrom lo m = true) : Memory.wfFrom lo (Memory.insert a b m) = true := by
  induction m generalizing lo with
  | nil => simp [Memory.insert, Memory.wfFrom, *]
  | cons p rest ih =>
    obtain ⟨k, d⟩ := p
    simp only [Memory.wfFrom, Bool.and_eq_true, decide_eq_true_eq, bne_iff_ne] at hm
    obtain ⟨⟨⟨h1, h2⟩, h3⟩, h4⟩ := hm
    simp only [Memory.insert]
    split
    · simp only [Memory.wfFrom, Bool.and_eq_true, decide_eq_true_eq, bne_iff_ne]
      exact ⟨⟨⟨hlo, ha⟩, hb⟩, ⟨⟨by omega, h2⟩, h3⟩, h4⟩
    · split
      · subst_vars
        simp only [Memory.wfFrom, Bool.and_eq_true, decide_eq_true_eq, bne_iff_ne]
        exact ⟨⟨⟨hlo, ha⟩, hb⟩, h4⟩
      · simp only [Memory.wfFrom, Bool.and_eq_true, decide_eq_true_eq, bne_iff_ne]
        exact ⟨⟨⟨h1, h2⟩, h3⟩, ih (by omega) h4⟩

theorem Memory.wfFrom_erase (a : Nat) {lo : Nat} {m : Memory} (hm : Memory.wfFrom lo m = true) :
    Memory.wfFrom lo (Memory.erase a m) = true := by
  induction m generalizing lo with
  | nil => rfl
  | cons p rest ih =>
    obtain ⟨k, d⟩ := p
    simp only [Memory.wfFrom, Bool.and_eq_true, decide_eq_true_eq] at hm
    obtain ⟨h1, h2⟩ := hm
    simp only [Memory.erase]
    split
    · exact ih (Memory.wfFrom_mono (by omega) h2)
    · simp only [Memory.wfFrom, Bool.and_eq_true, decide_eq_true_eq]
      exact ⟨h1, ih h2⟩

/-- A write keeps the canonical form. -/
theorem Memory.wf_write {m : Memory} (hm : m.wf = true) (a : Nat) (b : Byte) : (m.write a b).wf = true := by
  unfold Memory.write
  split
  · split
    · exact Memory.wfFrom_erase a hm
    · exact Memory.wfFrom_insert ‹_› ‹_› (Nat.zero_le a) hm
  · exact hm

/-- A run of writes keeps the canonical form. -/
theorem Memory.wf_writeAll {m : Memory} (hm : m.wf = true) (a : Nat) (bs : List Byte) :
    (m.writeAll a bs).wf = true := by
  induction bs generalizing m a with
  | nil => exact hm
  | cons b bs ih => exact ih (Memory.wf_write hm a b) (a + 1)

/-- The memory of the state after construction is in canonical form. -/
theorem State.reset_mem_wf : State.reset.mem.wf = true := rfl

/-! ## Reset contents -/

/-- From the program region on, the reset contents are 0 (spec/20_memory.md R43). -/
theorem resetByte_of_ge {a : Nat} (h : 0x200 ≤ a) : resetByte a = 0 := by
  unfold resetByte; rw [if_neg (by omega)]

theorem readMem_reset (a : Nat) : readMem State.reset a = resetByte a := rfl

end Sys2Proof.Machine
end

