-- ==== Sys2Proof/Laws/State.lean ====
section
/-! SUPPORT. One lemma per field of State per update of it, and the same for the three readers `getV`, `cell` and `readMem`,
so that no proof unfolds a record update. -/

namespace Sys2Proof.Machine

section

variable (x : RegIx) (b : Byte) (s : State)

@[simp] theorem setV_i : (setV x b s).i = s.i := rfl
@[simp] theorem setV_pc : (setV x b s).pc = s.pc := rfl
@[simp] theorem setV_sp : (setV x b s).sp = s.sp := rfl
@[simp] theorem setV_stack : (setV x b s).stack = s.stack := rfl
@[simp] theorem setV_dt : (setV x b s).dt = s.dt := rfl
@[simp] theorem setV_st : (setV x b s).st = s.st := rfl
@[simp] theorem setV_keys : (setV x b s).keys = s.keys := rfl
@[simp] theorem setV_display : (setV x b s).display = s.display := rfl
@[simp] theorem setV_mem : (setV x b s).mem = s.mem := rfl
@[simp] theorem setV_fault : (setV x b s).fault = s.fault := rfl
@[simp] theorem setV_rng : (setV x b s).rng = s.rng := rfl
@[simp] theorem setV_free : (setV x b s).free = s.free := rfl
@[simp] theorem cell_setV (k : Nat) : cell (setV x b s) k = cell s k := rfl
@[simp] theorem readMem_setV (c : Nat) : readMem (setV x b s) c = readMem s c := rfl

end

section

variable (b : Byte) (s : State)

@[simp] theorem setVF_i : (setVF b s).i = s.i := rfl
@[simp] theorem setVF_pc : (setVF b s).pc = s.pc := rfl
@[simp] theorem setVF_sp : (setVF b s).sp = s.sp := rfl
@[simp] theorem setVF_stack : (setVF b s).stack = s.stack := rfl
@[simp] theorem setVF_dt : (setVF b s).dt = s.dt := rfl
@[simp] theorem setVF_st : (setVF b s).st = s.st := rfl
@[simp] theorem setVF_keys : (setVF b s).keys = s.keys := rfl
@[simp] theorem setVF_display : (setVF b s).display = s.display := rfl
@[simp] theorem setVF_mem : (setVF b s).mem = s.mem := rfl
@[simp] theorem setVF_fault : (setVF b s).fault = s.fault := rfl
@[simp] theorem setVF_rng : (setVF b s).rng = s.rng := rfl
@[simp] theorem setVF_free : (setVF b s).free = s.free := rfl
@[simp] theorem cell_setVF (k : Nat) : cell (setVF b s) k = cell s k := rfl
@[simp] theorem readMem_setVF (c : Nat) : readMem (setVF b s) c = readMem s c := rfl

end

section

variable (x : RegIx) (f : Nat → Byte) (s : State)

@[simp] theorem setVUpTo_i : (setVUpTo x f s).i = s.i := rfl
@[simp] theorem setVUpTo_pc : (setVUpTo x f s).pc = s.pc := rfl
@[simp] theorem setVUpTo_sp : (setVUpTo x f s).sp = s.sp := rfl
@[simp] theorem setVUpTo_stack : (setVUpTo x f s).stack = s.stack := rfl
@[simp] theorem setVUpTo_dt : (setVUpTo x f s).dt = s.dt := rfl
@[simp] theorem setVUpTo_st : (setVUpTo x f s).st = s.st := rfl
@[simp] theorem setVUpTo_keys : (setVUpTo x f s).keys = s.keys := rfl
@[simp] theorem setVUpTo_display : (setVUpTo x f s).display = s.display := rfl
@[simp] theorem setVUpTo_mem : (setVUpTo x f s).mem = s.mem := rfl
@[simp] theorem setVUpTo_fault : (setVUpTo x f s).fault = s.fault := rfl
@[simp] theorem setVUpTo_rng : (setVUpTo x f s).rng = s.rng := rfl
@[simp] theorem setVUpTo_free : (setVUpTo x f s).free = s.free := rfl
@[simp] theorem cell_setVUpTo (k : Nat) : cell (setVUpTo x f s) k = cell s k := rfl
@[simp] theorem readMem_setVUpTo (c : Nat) : readMem (setVUpTo x f s) c = readMem s c := rfl

end

section

variable (w : Word) (s : State)

@[simp] theorem setI_v : (setI w s).v = s.v := rfl
@[simp] theorem setI_i : (setI w s).i = w := rfl
@[simp] theorem setI_pc : (setI w s).pc = s.pc := rfl
@[simp] theorem setI_sp : (setI w s).sp = s.sp := rfl
@[simp] theorem setI_stack : (setI w s).stack = s.stack := rfl
@[simp] theorem setI_dt : (setI w s).dt = s.dt := rfl
@[simp] theorem setI_st : (setI w s).st = s.st := rfl
@[simp] theorem setI_keys : (setI w s).keys = s.keys := rfl
@[simp] theorem setI_display : (setI w s).display = s.display := rfl
@[simp] theorem setI_mem : (setI w s).mem = s.mem := rfl
@[simp] theorem setI_fault : (setI w s).fault = s.fault := rfl
@[simp] theorem setI_rng : (setI w s).rng = s.rng := rfl
@[simp] theorem setI_free : (setI w s).free = s.free := rfl
@[simp] theorem getV_setI (r : RegIx) : getV (setI w s) r = getV s r := rfl
@[simp] theorem cell_setI (k : Nat) : cell (setI w s) k = cell s k := rfl
@[simp] theorem readMem_setI (c : Nat) : readMem (setI w s) c = readMem s c := rfl

end

section

variable (w : Word) (s : State)

@[simp] theorem setPc_v : (setPc w s).v = s.v := rfl
@[simp] theorem setPc_i : (setPc w s).i = s.i := rfl
@[simp] theorem setPc_pc : (setPc w s).pc = w := rfl
@[simp] theorem setPc_sp : (setPc w s).sp = s.sp := rfl
@[simp] theorem setPc_stack : (setPc w s).stack = s.stack := rfl
@[simp] theorem setPc_dt : (setPc w s).dt = s.dt := rfl
@[simp] theorem setPc_st : (setPc w s).st = s.st := rfl
@[simp] theorem setPc_keys : (setPc w s).keys = s.keys := rfl
@[simp] theorem setPc_display : (setPc w s).display = s.display := rfl
@[simp] theorem setPc_mem : (setPc w s).mem = s.mem := rfl
@[simp] theorem setPc_fault : (setPc w s).fault = s.fault := rfl
@[simp] theorem setPc_rng : (setPc w s).rng = s.rng := rfl
@[simp] theorem setPc_free : (setPc w s).free = s.free := rfl
@[simp] theorem getV_setPc (r : RegIx) : getV (setPc w s) r = getV s r := rfl
@[simp] theorem cell_setPc (k : Nat) : cell (setPc w s) k = cell s k := rfl
@[simp] theorem readMem_setPc (c : Nat) : readMem (setPc w s) c = readMem s c := rfl

end

section

variable (s : State)

@[simp] theorem advancePc_v : (advancePc s).v = s.v := rfl
@[simp] theorem advancePc_i : (advancePc s).i = s.i := rfl
@[simp] theorem advancePc_pc : (advancePc s).pc = s.pc + 2 := rfl
@[simp] theorem advancePc_sp : (advancePc s).sp = s.sp := rfl
@[simp] theorem advancePc_stack : (advancePc s).stack = s.stack := rfl
@[simp] theorem advancePc_dt : (advancePc s).dt = s.dt := rfl
@[simp] theorem advancePc_st : (advancePc s).st = s.st := rfl
@[simp] theorem advancePc_keys : (advancePc s).keys = s.keys := rfl
@[simp] theorem advancePc_display : (advancePc s).display = s.display := rfl
@[simp] theorem advancePc_mem : (advancePc s).mem = s.mem := rfl
@[simp] theorem advancePc_fault : (advancePc s).fault = s.fault := rfl
@[simp] theorem advancePc_rng : (advancePc s).rng = s.rng := rfl
@[simp] theorem advancePc_free : (advancePc s).free = s.free := rfl
@[simp] theorem getV_advancePc (r : RegIx) : getV (advancePc s) r = getV s r := rfl
@[simp] theorem cell_advancePc (k : Nat) : cell (advancePc s) k = cell s k := rfl
@[simp] theorem readMem_advancePc (c : Nat) : readMem (advancePc s) c = readMem s c := rfl

end

section

variable (s : State)

@[simp] theorem rewindPc_v : (rewindPc s).v = s.v := rfl
@[simp] theorem rewindPc_i : (rewindPc s).i = s.i := rfl
@[simp] theorem rewindPc_pc : (rewindPc s).pc = s.pc - 2 := rfl
@[simp] theorem rewindPc_sp : (rewindPc s).sp = s.sp := rfl
@[simp] theorem rewindPc_stack : (rewindPc s).stack = s.stack := rfl
@[simp] theorem rewindPc_dt : (rewindPc s).dt = s.dt := rfl
@[simp] theorem rewindPc_st : (rewindPc s).st = s.st := rfl
@[simp] theorem rewindPc_keys : (rewindPc s).keys = s.keys := rfl
@[simp] theorem rewindPc_display : (rewindPc s).display = s.display := rfl
@[simp] theorem rewindPc_mem : (rewindPc s).mem = s.mem := rfl
@[simp] theorem rewindPc_fault : (rewindPc s).fault = s.fault := rfl
@[simp] theorem rewindPc_rng : (rewindPc s).rng = s.rng := rfl
@[simp] theorem rewindPc_free : (rewindPc s).free = s.free := rfl
@[simp] theorem getV_rewindPc (r : RegIx) : getV (rewindPc s) r = getV s r := rfl
@[simp] theorem cell_rewindPc (k : Nat) : cell (rewindPc s) k = cell s k := rfl
@[simp] theorem readMem_rewindPc (c : Nat) : readMem (rewindPc s) c = readMem s c := rfl

end

section

variable (b : Byte) (s : State)

@[simp] theorem setDT_v : (setDT b s).v = s.v := rfl
@[simp] theorem setDT_i : (setDT b s).i = s.i := rfl
@[simp] theorem setDT_pc : (setDT b s).pc = s.pc := rfl
@[simp] theorem setDT_sp : (setDT b s).sp = s.sp := rfl
@[simp] theorem setDT_stack : (setDT b s).stack = s.stack := rfl
@[simp] theorem setDT_dt : (setDT b s).dt = b := rfl
@[simp] theorem setDT_st : (setDT b s).st = s.st := rfl
@[simp] theorem setDT_keys : (setDT b s).keys = s.keys := rfl
@[simp] theorem setDT_display : (setDT b s).display = s.display := rfl
@[simp] theorem setDT_mem : (setDT b s).mem = s.mem := rfl
@[simp] theorem setDT_fault : (setDT b s).fault = s.fault := rfl
@[simp] theorem setDT_rng : (setDT b s).rng = s.rng := rfl
@[simp] theorem setDT_free : (setDT b s).free = s.free := rfl
@[simp] theorem getV_setDT (r : RegIx) : getV (setDT b s) r = getV s r := rfl
@[simp] theorem cell_setDT (k : Nat) : cell (setDT b s) k = cell s k := rfl
@[simp] theorem readMem_setDT (c : Nat) : readMem (setDT b s) c = readMem s c := rfl

end

section

variable (b : Byte) (s : State)

@[simp] theorem setST_v : (setST b s).v = s.v := rfl
@[simp] theorem setST_i : (setST b s).i = s.i := rfl
@[simp] theorem setST_pc : (setST b s).pc = s.pc := rfl
@[simp] theorem setST_sp : (setST b s).sp = s.sp := rfl
@[simp] theorem setST_stack : (setST b s).stack = s.stack := rfl
@[simp] theorem setST_dt : (setST b s).dt = s.dt := rfl
@[simp] theorem setST_st : (setST b s).st = b := rfl
@[simp] theorem setST_keys : (setST b s).keys = s.keys := rfl
@[simp] theorem setST_display : (setST b s).display = s.display := rfl
@[simp] theorem setST_mem : (setST b s).mem = s.mem := rfl
@[simp] theorem setST_fault : (setST b s).fault = s.fault := rfl
@[simp] theorem setST_rng : (setST b s).rng = s.rng := rfl
@[simp] theorem setST_free : (setST b s).free = s.free := rfl
@[simp] theorem getV_setST (r : RegIx) : getV (setST b s) r = getV s r := rfl
@[simp] theorem cell_setST (k : Nat) : cell (setST b s) k = cell s k := rfl
@[simp] theorem readMem_setST (c : Nat) : readMem (setST b s) c = readMem s c := rfl

end

section

variable (w : Word) (s : State)

@[simp] theorem setKeys_v : (setKeys w s).v = s.v := rfl
@[simp] theorem setKeys_i : (setKeys w s).i = s.i := rfl
@[simp] theorem setKeys_pc : (setKeys w s).pc = s.pc := rfl
@[simp] theorem setKeys_sp : (setKeys w s).sp = s.sp := rfl
@[simp] theorem setKeys_stack : (setKeys w s).stack = s.stack := rfl
@[simp] theorem setKeys_dt : (setKeys w s).dt = s.dt := rfl
@[simp] theorem setKeys_st : (setKeys w s).st = s.st := rfl
@[simp] theorem setKeys_keys : (setKeys w s).keys = w := rfl
@[simp] theorem setKeys_display : (setKeys w s).display = s.display := rfl
@[simp] theorem setKeys_mem : (setKeys w s).mem = s.mem := rfl
@[simp] theorem setKeys_fault : (setKeys w s).fault = s.fault := rfl
@[simp] theorem setKeys_rng : (setKeys w s).rng = s.rng := rfl
@[simp] theorem setKeys_free : (setKeys w s).free = s.free := rfl
@[simp] theorem getV_setKeys (r : RegIx) : getV (setKeys w s) r = getV s r := rfl
@[simp] theorem cell_setKeys (k : Nat) : cell (setKeys w s) k = cell s k := rfl
@[simp] theorem readMem_setKeys (c : Nat) : readMem (setKeys w s) c = readMem s c := rfl

end

section

variable (d : Display) (s : State)

@[simp] theorem setDisplay_v : (setDisplay d s).v = s.v := rfl
@[simp] theorem setDisplay_i : (setDisplay d s).i = s.i := rfl
@[simp] theorem setDisplay_pc : (setDisplay d s).pc = s.pc := rfl
@[simp] theorem setDisplay_sp : (setDisplay d s).sp = s.sp := rfl
@[simp] theorem setDisplay_stack : (setDisplay d s).stack = s.stack := rfl
@[simp] theorem setDisplay_dt : (setDisplay d s).dt = s.dt := rfl
@[simp] theorem setDisplay_st : (setDisplay d s).st = s.st := rfl
@[simp] theorem setDisplay_keys : (setDisplay d s).keys = s.keys := rfl
@[simp] theorem setDisplay_display : (setDisplay d s).display = d := rfl
@[simp] theorem setDisplay_mem : (setDisplay d s).mem = s.mem := rfl
@[simp] theorem setDisplay_fault : (setDisplay d s).fault = s.fault := rfl
@[simp] theorem setDisplay_rng : (setDisplay d s).rng = s.rng := rfl
@[simp] theorem setDisplay_free : (setDisplay d s).free = s.free := rfl
@[simp] theorem getV_setDisplay (r : RegIx) : getV (setDisplay d s) r = getV s r := rfl
@[simp] theorem readMem_setDisplay (c : Nat) : readMem (setDisplay d s) c = readMem s c := rfl

end

section

variable (a : Nat) (bs : List Byte) (s : State)

@[simp] theorem storeBytes_v : (storeBytes a bs s).v = s.v := rfl
@[simp] theorem storeBytes_i : (storeBytes a bs s).i = s.i := rfl
@[simp] theorem storeBytes_pc : (storeBytes a bs s).pc = s.pc := rfl
@[simp] theorem storeBytes_sp : (storeBytes a bs s).sp = s.sp := rfl
@[simp] theorem storeBytes_stack : (storeBytes a bs s).stack = s.stack := rfl
@[simp] theorem storeBytes_dt : (storeBytes a bs s).dt = s.dt := rfl
@[simp] theorem storeBytes_st : (storeBytes a bs s).st = s.st := rfl
@[simp] theorem storeBytes_keys : (storeBytes a bs s).keys = s.keys := rfl
@[simp] theorem storeBytes_display : (storeBytes a bs s).display = s.display := rfl
@[simp] theorem storeBytes_mem : (storeBytes a bs s).mem = s.mem.writeAll a bs := rfl
@[simp] theorem storeBytes_fault : (storeBytes a bs s).fault = s.fault := rfl
@[simp] theorem storeBytes_rng : (storeBytes a bs s).rng = s.rng := rfl
@[simp] theorem storeBytes_free : (storeBytes a bs s).free = s.free := rfl
@[simp] theorem getV_storeBytes (r : RegIx) : getV (storeBytes a bs s) r = getV s r := rfl
@[simp] theorem cell_storeBytes (k : Nat) : cell (storeBytes a bs s) k = cell s k := rfl

end

section

variable (n : Nat) (s : State)

@[simp] theorem useFree_v : (useFree n s).v = s.v := rfl
@[simp] theorem useFree_i : (useFree n s).i = s.i := rfl
@[simp] theorem useFree_pc : (useFree n s).pc = s.pc := rfl
@[simp] theorem useFree_sp : (useFree n s).sp = s.sp := rfl
@[simp] theorem useFree_stack : (useFree n s).stack = s.stack := rfl
@[simp] theorem useFree_dt : (useFree n s).dt = s.dt := rfl
@[simp] theorem useFree_st : (useFree n s).st = s.st := rfl
@[simp] theorem useFree_keys : (useFree n s).keys = s.keys := rfl
@[simp] theorem useFree_display : (useFree n s).display = s.display := rfl
@[simp] theorem useFree_mem : (useFree n s).mem = s.mem := rfl
@[simp] theorem useFree_fault : (useFree n s).fault = s.fault := rfl
@[simp] theorem useFree_rng : (useFree n s).rng = s.rng := rfl
@[simp] theorem useFree_free : (useFree n s).free = s.free + n := rfl
@[simp] theorem getV_useFree (r : RegIx) : getV (useFree n s) r = getV s r := rfl
@[simp] theorem cell_useFree (k : Nat) : cell (useFree n s) k = cell s k := rfl
@[simp] theorem readMem_useFree (c : Nat) : readMem (useFree n s) c = readMem s c := rfl

end

section

variable (e : RuntimeError) (s : State)

@[simp] theorem raiseError_v : (raiseError e s).v = s.v := rfl
@[simp] theorem raiseError_i : (raiseError e s).i = s.i := rfl
@[simp] theorem raiseError_pc : (raiseError e s).pc = s.pc := rfl
@[simp] theorem raiseError_sp : (raiseError e s).sp = s.sp := rfl
@[simp] theorem raiseError_stack : (raiseError e s).stack = s.stack := rfl
@[simp] theorem raiseError_dt : (raiseError e s).dt = s.dt := rfl
@[simp] theorem raiseError_st : (raiseError e s).st = s.st := rfl
@[simp] theorem raiseError_keys : (raiseError e s).keys = s.keys := rfl
@[simp] theorem raiseError_display : (raiseError e s).display = s.display := rfl
@[simp] theorem raiseError_mem : (raiseError e s).mem = s.mem := rfl
@[simp] theorem raiseError_fault : (raiseError e s).fault = some e := rfl
@[simp] theorem raiseError_rng : (raiseError e s).rng = s.rng := rfl
@[simp] theorem raiseError_free : (raiseError e s).free = s.free := rfl
@[simp] theorem getV_raiseError (r : RegIx) : getV (raiseError e s) r = getV s r := rfl
@[simp] theorem cell_raiseError (k : Nat) : cell (raiseError e s) k = cell s k := rfl
@[simp] theorem readMem_raiseError (c : Nat) : readMem (raiseError e s) c = readMem s c := rfl

end

/-! ## A taken or untaken skip changes nothing but PC -/

section

variable (c : Bool) (s : State)

@[simp] theorem skipIf_pc : (skipIf c s).pc = if c then s.pc + 2 else s.pc := by cases c <;> rfl
@[simp] theorem skipIf_v : (skipIf c s).v = s.v := by cases c <;> rfl
@[simp] theorem skipIf_i : (skipIf c s).i = s.i := by cases c <;> rfl
@[simp] theorem skipIf_sp : (skipIf c s).sp = s.sp := by cases c <;> rfl
@[simp] theorem skipIf_stack : (skipIf c s).stack = s.stack := by cases c <;> rfl
@[simp] theorem skipIf_dt : (skipIf c s).dt = s.dt := by cases c <;> rfl
@[simp] theorem skipIf_st : (skipIf c s).st = s.st := by cases c <;> rfl
@[simp] theorem skipIf_keys : (skipIf c s).keys = s.keys := by cases c <;> rfl
@[simp] theorem skipIf_display : (skipIf c s).display = s.display := by cases c <;> rfl
@[simp] theorem skipIf_mem : (skipIf c s).mem = s.mem := by cases c <;> rfl
@[simp] theorem skipIf_fault : (skipIf c s).fault = s.fault := by cases c <;> rfl
@[simp] theorem skipIf_rng : (skipIf c s).rng = s.rng := by cases c <;> rfl
@[simp] theorem skipIf_free : (skipIf c s).free = s.free := by cases c <;> rfl
@[simp] theorem getV_skipIf (r : RegIx) : getV (skipIf c s) r = getV s r := by cases c <;> rfl
@[simp] theorem cell_skipIf (k : Nat) : cell (skipIf c s) k = cell s k := by cases c <;> rfl
@[simp] theorem readMem_skipIf (c' : Nat) : readMem (skipIf c s) c' = readMem s c' := by cases c <;> rfl

end

/-! ## A draw changes nothing but the RNG state -/

section

variable (s : State)

@[simp] theorem drawRandom_v : (drawRandom s).2.v = s.v := rfl
@[simp] theorem drawRandom_i : (drawRandom s).2.i = s.i := rfl
@[simp] theorem drawRandom_pc : (drawRandom s).2.pc = s.pc := rfl
@[simp] theorem drawRandom_sp : (drawRandom s).2.sp = s.sp := rfl
@[simp] theorem drawRandom_stack : (drawRandom s).2.stack = s.stack := rfl
@[simp] theorem drawRandom_dt : (drawRandom s).2.dt = s.dt := rfl
@[simp] theorem drawRandom_st : (drawRandom s).2.st = s.st := rfl
@[simp] theorem drawRandom_keys : (drawRandom s).2.keys = s.keys := rfl
@[simp] theorem drawRandom_display : (drawRandom s).2.display = s.display := rfl
@[simp] theorem drawRandom_mem : (drawRandom s).2.mem = s.mem := rfl
@[simp] theorem drawRandom_fault : (drawRandom s).2.fault = s.fault := rfl
@[simp] theorem drawRandom_rng : (drawRandom s).2.rng = s.rng + 1 := rfl
@[simp] theorem drawRandom_free : (drawRandom s).2.free = s.free := rfl
@[simp] theorem getV_drawRandom (r : RegIx) : getV (drawRandom s).2 r = getV s r := rfl
@[simp] theorem cell_drawRandom (k : Nat) : cell (drawRandom s).2 k = cell s k := rfl
@[simp] theorem readMem_drawRandom (c : Nat) : readMem (drawRandom s).2 c = readMem s c := rfl
@[simp] theorem drawRandom_byte : (drawRandom s).1 = Config.randomByte s.rng := rfl

end

end Sys2Proof.Machine
end

