-- ==== Sys2Proof/Laws/Registers.lean ====
section
/-! SUPPORT. What the register writes and the call stack do: one lemma per operation. -/

namespace Sys2Proof.Machine

/-- `V[x] <- b` sets register x and no other. -/
@[simp] theorem getV_setV (x : RegIx) (b : Byte) (s : State) (r : RegIx) :
    getV (setV x b s) r = if r = x then b else getV s r := by
  simp only [getV, setV, Vector.getElem_set, BitVec.toNat_inj, eq_comm]

/-- A flag write sets VF and no other register. -/
@[simp] theorem getV_setVF (b : Byte) (s : State) (r : RegIx) :
    getV (setVF b s) r = if r = 0xF#4 then b else getV s r :=
  getV_setV 0xF#4 b s r

theorem getElem_fillRegs (f : Nat → Byte) (n : Nat) (v : Vector Byte 16) (k : Nat) (hk : k < 16) :
    (fillRegs f n v)[k] = if k < n then f k else v[k] := by
  induction n with
  | zero => simp [fillRegs]
  | succ n ih =>
    simp only [fillRegs, Vector.getElem_setIfInBounds, ih]
    by_cases h : n = k
    · subst h; simp
    · have : k < n + 1 ↔ k < n := by omega
      simp [h, this]

/-- `V[k] <- f k` for k in 0..x sets those registers and no other. -/
@[simp] theorem getV_setVUpTo (x : RegIx) (f : Nat → Byte) (s : State) (r : RegIx) :
    getV (setVUpTo x f s) r = if r.toNat ≤ x.toNat then f r.toNat else getV s r := by
  simp only [getV, setVUpTo, getElem_fillRegs, Nat.lt_succ_iff]

/-- Register files are equal when every register reads the same. -/
theorem v_ext {s t : State} (h : ∀ r, getV s r = getV t r) : s.v = t.v := by
  apply Vector.ext
  intro k hk
  have := h (BitVec.ofNat 4 k)
  simpa [getV, Nat.mod_eq_of_lt hk] using this

/-- A push fails exactly when SP = 16; else it writes STACK[SP] and increments SP (spec/10_state.md R30). -/
theorem push_cases (w : Word) (s : State) :
    (s.sp.val = 16 ∧ push w s = none) ∨
    ∃ h : s.sp.val < 16, push w s = some { s with
      stack := s.stack.set s.sp.val w h, sp := ⟨s.sp.val + 1, by omega⟩ } := by
  unfold push
  by_cases h : s.sp.val < 16
  · exact .inr ⟨h, dif_pos h⟩
  · exact .inl ⟨by omega, dif_neg h⟩

/-- A pop fails exactly when SP = 0; else it decrements SP and gives STACK[SP] (R30). -/
theorem pop_cases (s : State) :
    (s.sp.val = 0 ∧ pop s = none) ∨
    ∃ h : 0 < s.sp.val, pop s = some (s.stack[s.sp.val - 1]'(by omega), { s with sp := ⟨s.sp.val - 1, by omega⟩ }) := by
  unfold pop
  by_cases h : 0 < s.sp.val
  · exact .inr ⟨h, dif_pos h⟩
  · exact .inl ⟨by omega, dif_neg h⟩

end Sys2Proof.Machine
end

