-- ==== Sys2Proof/Laws/Ops.lean ====
section
/-! SUPPORT. One lemma per shared operation: operand forms, fetch, the arithmetic helpers of the meanings, and what raising an
error leaves. -/

namespace Sys2Proof.Machine

/-! ## Operands -/

/-- `b AND 0xF` is the low nibble as a number. -/
theorem and_lowNibble (b : Byte) : (b &&& 0xF#8).toNat = b.toNat % 16 := by
  rw [BitVec.toNat_and]; exact Nat.and_two_pow_sub_one_eq_mod b.toNat 4

theorem keyIndex_eq (s : State) (x : RegIx) : keyIndex s x = (getV s x).toNat % 16 := and_lowNibble _

/-- The glyph address fits below 0x200, whatever FONT_BASE is (spec/43_memory_index.md R105). -/
theorem glyphAddr_eq (s : State) (x : RegIx) :
    glyphAddr s x = Config.fontBase.val + (getV s x).toNat % 16 * 5 ∧ glyphAddr s x < 0x200 := by
  have h := Config.fontBase.isLt
  have e : glyphAddr s x = Config.fontBase.val + (getV s x).toNat % 16 * 5 := by rw [glyphAddr, and_lowNibble]
  exact ⟨e, by omega⟩

/-- The range check is R42's: an empty range needs none, and a non-empty one must end at or below 0xFFF. -/
theorem rangeOk_iff (s : State) (len : Nat) : rangeOk s len = true ↔ ¬ (len > 0 ∧ s.i.toNat + len - 1 > 0xFFF) := by
  simp only [rangeOk, Bool.or_eq_true, beq_iff_eq, decide_eq_true_eq]; omega

theorem drawColumn_eq (s : State) (x : RegIx) : drawColumn s x = (getV s x).toNat % 64 := rfl

theorem drawRow_eq (s : State) (y : RegIx) : drawRow s y = (getV s y).toNat % 32 := rfl

/-- On a mask that is not 0 the lowest key is held, and no lower one is. -/
theorem lowestKey_spec {keys : Word} (h : keys ≠ 0) :
    ∃ k, k < 16 ∧ keys.getLsbD k = true ∧ (∀ j < k, keys.getLsbD j = false) ∧ lowestKey keys = BitVec.ofNat 8 k := by
  cases hf : (List.range 16).find? keys.getLsbD with
  | none =>
    refine absurd (BitVec.eq_of_getLsbD_eq fun i hi => ?_) h
    have := List.find?_eq_none.mp hf i (List.mem_range.mpr hi)
    simpa using this
  | some k =>
    have h1 := List.find?_some hf
    have h2 := List.mem_range.mp (List.mem_of_find?_eq_some hf)
    refine ⟨k, h2, h1, fun j hj => ?_, by rw [lowestKey, hf]; rfl⟩
    rw [List.find?_range_eq_some] at hf
    simpa using hf.2.2 j hj

/-! ## Fetch (spec/40_execution_cycle.md R74) -/

theorem fetch_of_le {s : State} {a : Nat} (h : a ≤ 0xFFE) :
    fetch s a = some (opcodeOfBytes (readMem s a) (readMem s (a + 1))) := by
  unfold fetch; rw [if_neg (by omega)]

theorem fetch_of_gt {s : State} {a : Nat} (h : 0xFFE < a) : fetch s a = none := by
  unfold fetch; rw [if_pos h]

/-! ## The lists that the memory block instructions move -/

@[simp] theorem length_regsUpTo (x : RegIx) (s : State) :
    ((List.range (x.toNat + 1)).map fun k => getV s (BitVec.ofNat 4 k)).length = x.toNat + 1 := by simp

@[simp] theorem length_freeBytes (s : State) (n : Nat) : (freeBytes s n).length = n := by simp [freeBytes]

/-! ## Raising an error (spec/60_exceptions.md R136, R137) -/

/-- An error of Fx33 or Fx55 sets FAULT and changes at most the bytes of its range, besides the counter of free values. -/
theorem raiseStore_spec (len : Nat) (s : State) :
    (raiseStore len s).fault = some .memoryAccessViolation ∧
    (∀ a, (a < s.i.toNat ∨ s.i.toNat + len ≤ a) → readMem (raiseStore len s) a = readMem s a) ∧
    raiseStore len s = { s with mem := (raiseStore len s).mem, fault := some .memoryAccessViolation, free := s.free + len } := by
  refine ⟨rfl, fun a ha => ?_, rfl⟩
  simp only [raiseStore, readMem_raiseError, readMem_useFree]
  exact readMem_storeBytes_of_outside (by simpa [effAddr] using ha)

/-- An error of Fx65 sets FAULT and changes at most V0..Vx, besides the counter of free values. -/
theorem raiseLoad_spec (x : RegIx) (s : State) :
    (raiseLoad x s).fault = some .memoryAccessViolation ∧
    (∀ r : RegIx, x.toNat < r.toNat → getV (raiseLoad x s) r = getV s r) ∧
    raiseLoad x s =
      { s with v := (raiseLoad x s).v, fault := some .memoryAccessViolation, free := s.free + (x.toNat + 1) } := by
  refine ⟨rfl, fun r hr => ?_, rfl⟩
  simp only [raiseLoad, getV_raiseError, getV_useFree, getV_setVUpTo, if_neg (Nat.not_le.mpr hr)]

/-- An error of Dxyn sets FAULT and changes at most VF and the cells under the sprite, besides the counter of free values. -/
theorem raiseDraw_spec (cx cy n : Nat) (s : State) :
    (raiseDraw cx cy n s).fault = some .memoryAccessViolation ∧
    (∀ r, r ≠ 0xF#4 → getV (raiseDraw cx cy n s) r = getV s r) ∧
    (∀ k, k ∉ areaCells cx cy n → cell (raiseDraw cx cy n s) k = cell s k) ∧
    raiseDraw cx cy n s = { s with
      v := (raiseDraw cx cy n s).v
      display := (raiseDraw cx cy n s).display
      fault := some .memoryAccessViolation
      free := s.free + (8 * n + 1) } := by
  refine ⟨rfl, fun r hr => ?_, fun k hk => ?_, rfl⟩
  · simp [raiseDraw, hr]
  · exact cellAt_freeCells areaCells_lt s.free s.display hk

end Sys2Proof.Machine
end

