-- ==== Sys2Proof/Laws/Frames.lean ====
section
/-! SUPPORT. What the shared operations change, in the terms of Safety.lean. -/

namespace Sys2Proof.Machine

/-- A skip changes PC alone. -/
theorem sameBut_skipIf (c : Bool) (s : State) : SameBut [.pc] s (skipIf c s) := by
  intro p hp; cases p <;> first | exact absurd hp (by decide) | simp [Unchanged]

/-- A register result with no flag. -/
theorem regWrite_setV (x : RegIx) (b : Byte) (s : State) : RegWrite x b s (setV x b s) := by
  refine ⟨by simp, fun r hr => by simp [hr], fun p hp => ?_⟩
  cases p <;> first | exact absurd hp (by decide) | rfl | (intro _; rfl)

/-- A register result and then the flag. -/
theorem regFlagWrite_setVF (x : RegIx) (b flag : Byte) (s : State) : RegFlagWrite x b flag s (setVF flag (setV x b s)) := by
  refine ⟨by simp, fun h => by simp [h], fun r hr hr' => by simp [hr, hr'], fun p hp => ?_⟩
  cases p <;> first | exact absurd hp (by decide) | rfl | (intro _; rfl)

/-- The cells that a draw complements are those under set sprite bits. -/
theorem mem_spriteCells_iff_covers (s : State) (x y : RegIx) (n k : Nat) :
    k ∈ spriteCells (drawColumn s x) (drawRow s y) 0 (spriteRows s n) ↔ SpriteCovers s x y n k := by
  rw [mem_spriteCells]
  constructor
  · rintro ⟨j, hj, c, hc, hb, rfl⟩
    refine ⟨j, by simpa [spriteRows] using hj, c, hc, by simpa [spriteRows, effAddr] using hb, ?_⟩
    simp only [SpriteCell, cellIndex, drawColumn_eq, drawRow_eq, Nat.zero_add]
  · rintro ⟨j, hj, c, hc, hb, e⟩
    refine ⟨j, by simpa [spriteRows] using hj, c, hc, by simpa [spriteRows, effAddr] using hb, ?_⟩
    rw [e]
    simp only [cellIndex, drawColumn_eq, drawRow_eq, Nat.zero_add]

/-- The cells that an erroring draw leaves unspecified are those under the sprite. -/
theorem mem_areaCells_iff_area (s : State) (x y : RegIx) (n k : Nat) :
    k ∈ areaCells (drawColumn s x) (drawRow s y) n ↔ SpriteArea s x y n k := by
  rw [mem_areaCells]; rfl

end Sys2Proof.Machine
end

