-- ==== Sys2Proof/Laws/PerInstr.lean ====
section
/-! SUPPORT. Per instruction: the opcode that encodes it shows the row's `match` under the row's `mask` of
spec/opcode_table.json. -/

namespace Sys2Proof.Laws.Pattern

open Sys2Proof

/-- The row's mask: the bits the pattern fixes. -/
def mask : Instr → Opcode
  | .clearScreen | .ret => 0xFFFF#16
  | .jump _ | .call _ | .skipEqImm _ _ | .skipNeImm _ _ | .skipEqReg _ _ _ | .loadImm _ _ | .addImm _ _ | .skipNeReg _ _ _ | .loadIndex _ | .jumpOffset _ | .random _ _ | .drawSprite _ _ _ => 0xF000#16
  | .regMov _ _ | .regOr _ _ | .regAnd _ _ | .regXor _ _ | .regAdd _ _ | .regSub _ _ | .regShr _ _ | .regSubn _ _ | .regShl _ _ => 0xF00F#16
  | .skipKeyDown _ | .skipKeyUp _ | .getDelay _ | .waitKey _ | .setDelay _ | .setSound _ | .addIndex _ | .fontChar _ | .bcd _ | .storeRegs _ | .loadRegs _ => 0xF0FF#16
  | .nop _ => 0x0000#16

/-- The row's match: the value of the fixed bits. -/
def value : Instr → Opcode
  | .clearScreen => 0x00E0#16
  | .ret => 0x00EE#16
  | .jump _ => 0x1000#16
  | .call _ => 0x2000#16
  | .skipEqImm _ _ => 0x3000#16
  | .skipNeImm _ _ => 0x4000#16
  | .skipEqReg _ _ _ => 0x5000#16
  | .loadImm _ _ => 0x6000#16
  | .addImm _ _ => 0x7000#16
  | .regMov _ _ => 0x8000#16
  | .regOr _ _ => 0x8001#16
  | .regAnd _ _ => 0x8002#16
  | .regXor _ _ => 0x8003#16
  | .regAdd _ _ => 0x8004#16
  | .regSub _ _ => 0x8005#16
  | .regShr _ _ => 0x8006#16
  | .regSubn _ _ => 0x8007#16
  | .regShl _ _ => 0x800E#16
  | .skipNeReg _ _ _ => 0x9000#16
  | .loadIndex _ => 0xA000#16
  | .jumpOffset _ => 0xB000#16
  | .random _ _ => 0xC000#16
  | .drawSprite _ _ _ => 0xD000#16
  | .skipKeyDown _ => 0xE09E#16
  | .skipKeyUp _ => 0xE0A1#16
  | .getDelay _ => 0xF007#16
  | .waitKey _ => 0xF00A#16
  | .setDelay _ => 0xF015#16
  | .setSound _ => 0xF018#16
  | .addIndex _ => 0xF01E#16
  | .fontChar _ => 0xF029#16
  | .bcd _ => 0xF033#16
  | .storeRegs _ => 0xF055#16
  | .loadRegs _ => 0xF065#16
  | .nop _ => 0x0000#16

/-- The encoding of an instruction fits its row of the opcode table. -/
def Statement (i : Instr) : Prop := encode i &&& mask i = value i

/-- Masking commutes with concatenation, part by part. -/
theorem packA_and (c c' : BitVec 4) (n n' : Addr) : packA c n &&& packA c' n' = packA (c &&& c') (n &&& n') := by
  apply BitVec.eq_of_getLsbD_eq; intro i _
  simp only [BitVec.getLsbD_and, getLsbD_packA]; split <;> rfl

theorem packXK_and (c c' : BitVec 4) (x x' : RegIx) (n n' : Byte) :
    packXK c x n &&& packXK c' x' n' = packXK (c &&& c') (x &&& x') (n &&& n') := by
  apply BitVec.eq_of_getLsbD_eq; intro i _
  simp only [BitVec.getLsbD_and, getLsbD_packXK]; split <;> [rfl; split <;> rfl]

theorem packXY_and (c c' : BitVec 4) (x x' y y' : RegIx) (n n' : BitVec 4) :
    packXY c x y n &&& packXY c' x' y' n' = packXY (c &&& c') (x &&& x') (y &&& y') (n &&& n') := by
  apply BitVec.eq_of_getLsbD_eq; intro i _
  simp only [BitVec.getLsbD_and, getLsbD_packXY]; split <;> [rfl; split <;> [rfl; split <;> rfl]]

/-- Format A keeps its category under the mask. -/
theorem fitsA (c : BitVec 4) (nnn : Addr) : packA c nnn &&& packA 0xF#4 0#12 = packA c 0#12 := by
  rw [packA_and, show c &&& 0xF#4 = c from BitVec.and_allOnes, BitVec.and_zero]

/-- A category and low byte are kept under the mask of both. -/
theorem fitsXS (c : BitVec 4) (x : RegIx) (nn : Byte) : packXK c x nn &&& packXK 0xF#4 0#4 0xFF#8 = packXK c 0#4 nn := by
  rw [packXK_and, show c &&& 0xF#4 = c from BitVec.and_allOnes, show nn &&& 0xFF#8 = nn from BitVec.and_allOnes,
    BitVec.and_zero]

/-- A category alone is kept, the low byte being a field. -/
theorem fitsXK (c : BitVec 4) (x : RegIx) (nn : Byte) : packXK c x nn &&& packXK 0xF#4 0#4 0#8 = packXK c 0#4 0#8 := by
  rw [packXK_and, show c &&& 0xF#4 = c from BitVec.and_allOnes, BitVec.and_zero, BitVec.and_zero]

/-- A category and low nibble are kept under the mask of both. -/
theorem fitsXY (c : BitVec 4) (x y : RegIx) (n : BitVec 4) :
    packXY c x y n &&& packXY 0xF#4 0#4 0#4 0xF#4 = packXY c 0#4 0#4 n := by
  rw [packXY_and, show c &&& 0xF#4 = c from BitVec.and_allOnes, show n &&& 0xF#4 = n from BitVec.and_allOnes,
    BitVec.and_zero, BitVec.and_zero]

/-- A category alone is kept, the low nibble being a field. -/
theorem fitsXYN (c : BitVec 4) (x y : RegIx) (n : BitVec 4) :
    packXY c x y n &&& packXY 0xF#4 0#4 0#4 0#4 = packXY c 0#4 0#4 0#4 := by
  rw [packXY_and, show c &&& 0xF#4 = c from BitVec.and_allOnes, BitVec.and_zero, BitVec.and_zero, BitVec.and_zero]

theorem clearScreen : Statement (.clearScreen) := rfl

theorem ret : Statement (.ret) := rfl

theorem jump (nnn : Addr) : Statement (.jump nnn) := fitsA 0x1#4 nnn

theorem call (nnn : Addr) : Statement (.call nnn) := fitsA 0x2#4 nnn

theorem skipEqImm (x : RegIx) (nn : Byte) : Statement (.skipEqImm x nn) := fitsXK 0x3#4 x nn

theorem skipNeImm (x : RegIx) (nn : Byte) : Statement (.skipNeImm x nn) := fitsXK 0x4#4 x nn

theorem skipEqReg (x : RegIx) (y : RegIx) (n : BitVec 4) : Statement (.skipEqReg x y n) := fitsXYN 0x5#4 x y n

theorem loadImm (x : RegIx) (nn : Byte) : Statement (.loadImm x nn) := fitsXK 0x6#4 x nn

theorem addImm (x : RegIx) (nn : Byte) : Statement (.addImm x nn) := fitsXK 0x7#4 x nn

theorem regMov (x : RegIx) (y : RegIx) : Statement (.regMov x y) := fitsXY 0x8#4 x y 0x0#4

theorem regOr (x : RegIx) (y : RegIx) : Statement (.regOr x y) := fitsXY 0x8#4 x y 0x1#4

theorem regAnd (x : RegIx) (y : RegIx) : Statement (.regAnd x y) := fitsXY 0x8#4 x y 0x2#4

theorem regXor (x : RegIx) (y : RegIx) : Statement (.regXor x y) := fitsXY 0x8#4 x y 0x3#4

theorem regAdd (x : RegIx) (y : RegIx) : Statement (.regAdd x y) := fitsXY 0x8#4 x y 0x4#4

theorem regSub (x : RegIx) (y : RegIx) : Statement (.regSub x y) := fitsXY 0x8#4 x y 0x5#4

theorem regShr (x : RegIx) (y : RegIx) : Statement (.regShr x y) := fitsXY 0x8#4 x y 0x6#4

theorem regSubn (x : RegIx) (y : RegIx) : Statement (.regSubn x y) := fitsXY 0x8#4 x y 0x7#4

theorem regShl (x : RegIx) (y : RegIx) : Statement (.regShl x y) := fitsXY 0x8#4 x y 0xE#4

theorem skipNeReg (x : RegIx) (y : RegIx) (n : BitVec 4) : Statement (.skipNeReg x y n) := fitsXYN 0x9#4 x y n

theorem loadIndex (nnn : Addr) : Statement (.loadIndex nnn) := fitsA 0xA#4 nnn

theorem jumpOffset (nnn : Addr) : Statement (.jumpOffset nnn) := fitsA 0xB#4 nnn

theorem random (x : RegIx) (nn : Byte) : Statement (.random x nn) := fitsXK 0xC#4 x nn

theorem drawSprite (x : RegIx) (y : RegIx) (n : BitVec 4) : Statement (.drawSprite x y n) := fitsXYN 0xD#4 x y n

theorem skipKeyDown (x : RegIx) : Statement (.skipKeyDown x) := fitsXS 0xE#4 x 0x9E#8

theorem skipKeyUp (x : RegIx) : Statement (.skipKeyUp x) := fitsXS 0xE#4 x 0xA1#8

theorem getDelay (x : RegIx) : Statement (.getDelay x) := fitsXS 0xF#4 x 0x07#8

theorem waitKey (x : RegIx) : Statement (.waitKey x) := fitsXS 0xF#4 x 0x0A#8

theorem setDelay (x : RegIx) : Statement (.setDelay x) := fitsXS 0xF#4 x 0x15#8

theorem setSound (x : RegIx) : Statement (.setSound x) := fitsXS 0xF#4 x 0x18#8

theorem addIndex (x : RegIx) : Statement (.addIndex x) := fitsXS 0xF#4 x 0x1E#8

theorem fontChar (x : RegIx) : Statement (.fontChar x) := fitsXS 0xF#4 x 0x29#8

theorem bcd (x : RegIx) : Statement (.bcd x) := fitsXS 0xF#4 x 0x33#8

theorem storeRegs (x : RegIx) : Statement (.storeRegs x) := fitsXS 0xF#4 x 0x55#8

theorem loadRegs (x : RegIx) : Statement (.loadRegs x) := fitsXS 0xF#4 x 0x65#8

theorem nop (op : Opcode) : Statement (.nop op) := BitVec.and_zero

end Sys2Proof.Laws.Pattern
end

