-- ==== Sys2Proof/Laws/Step.lean ====
section
/-! SUPPORT. What a step and a host operation can do, said once. -/

namespace Sys2Proof.Machine

/-- What a step can do when it answers a next state: a fetch error, or `exec` of the instruction at PC. -/
theorem step_cases {s t : State} (h : step s = .next t) :
    s.fault = none ∧
    ((0xFFE < s.pc.toNat ∧ t = raiseError .memoryAccessViolation s) ∨
     (s.pc.toNat ≤ 0xFFE ∧ exec (decodeOpcode (opcodeAtPc s)) (advancePc s) = .next t)) := by
  unfold step at h
  cases hf : s.fault with
  | some e => rw [hf] at h; cases h
  | none =>
    rw [hf] at h
    refine ⟨rfl, ?_⟩
    by_cases hp : s.pc.toNat ≤ 0xFFE
    · simp only [fetch_of_le hp] at h
      exact .inr ⟨hp, h⟩
    · simp only [fetch_of_gt (Nat.lt_of_not_le hp), Host.Outcome.next.injEq] at h
      exact .inl ⟨Nat.lt_of_not_le hp, h.symm⟩

/-- A step on a halted CORE. -/
theorem step_of_fault {s : State} {e : RuntimeError} (h : s.fault = some e) : step s = .fault (.halted e) := by
  unfold step; rw [h]

/-- A step that cannot fetch. -/
theorem step_of_fetch_error {s : State} (hf : s.fault = none) (hp : 0xFFE < s.pc.toNat) :
    step s = .next (raiseError .memoryAccessViolation s) := by
  unfold step; simp only [hf, fetch_of_gt hp]

/-- A step that fetches runs the decoded instruction. -/
theorem step_of_fetch {s : State} (hf : s.fault = none) (hp : s.pc.toNat ≤ 0xFFE) :
    step s = exec (decodeOpcode (opcodeAtPc s)) (advancePc s) := by
  unfold step; simp only [hf, fetch_of_le hp]; rfl

/-- The advance of a fetching step does not wrap (spec/40_execution_cycle.md R76). -/
theorem pc_add_two {w : Word} (h : w.toNat ≤ 0xFFE) : (w + 2).toNat = w.toNat + 2 := by
  rw [BitVec.toNat_add]; show (w.toNat + 2) % 65536 = _; omega

/-- What a host operation can do when it answers: a load of an admitted image, a load error, a step, or an operation on
timers or keys, or nothing. -/
theorem call_cases {op : HostOp} {S S' : Session} {r : Reply} (h : Session.call op S = .next (S', r)) :
    (∃ bytes, op = .load bytes ∧ S.stepped = false ∧ bytes.length ≤ Config.maxProgram ∧
      S' = { S with core := storeBytes Config.programBase bytes S.core }) ∨
    (op = .step ∧ ∃ t, step S.core = .next t ∧ S' = { core := t, stepped := true }) ∨
    (op = .decrementTimers ∧ S' = { S with core := decrementTimers S.core }) ∨
    (∃ k, op = .pressKey k ∧ S' = { S with core := pressKey k S.core }) ∨
    (∃ k, op = .releaseKey k ∧ S' = { S with core := releaseKey k S.core }) ∨
    (S' = S ∧ op ≠ .step) := by
  cases op with
  | load bytes =>
    simp only [Session.call, loadBytes] at h
    cases hs : S.stepped with
    | true => simp [hs] at h
    | false =>
      by_cases hl : bytes.length > Config.maxProgram
      · simp only [hs, if_pos hl, Bool.false_eq_true, if_false, Host.Outcome.next.injEq, Prod.mk.injEq] at h
        exact .inr <| .inr <| .inr <| .inr <| .inr ⟨h.1.symm, nofun⟩
      · simp only [hs, if_neg hl, Bool.false_eq_true, if_false, Host.Outcome.next.injEq, Prod.mk.injEq] at h
        exact .inl ⟨bytes, rfl, rfl, Nat.le_of_not_gt hl, by rw [← h.1]⟩
  | step =>
    simp only [Session.call] at h
    split at h <;> simp only [Host.Outcome.next.injEq, Prod.mk.injEq, reduceCtorEq] at h
    exact .inr <| .inl ⟨rfl, _, ‹_›, h.1.symm⟩
  | decrementTimers =>
    simp only [Session.call, Host.Outcome.next.injEq, Prod.mk.injEq] at h
    exact .inr <| .inr <| .inl ⟨rfl, h.1.symm⟩
  | pressKey k =>
    simp only [Session.call, Host.Outcome.next.injEq, Prod.mk.injEq] at h
    exact .inr <| .inr <| .inr <| .inl ⟨k, rfl, h.1.symm⟩
  | releaseKey k =>
    simp only [Session.call, Host.Outcome.next.injEq, Prod.mk.injEq] at h
    exact .inr <| .inr <| .inr <| .inr <| .inl ⟨k, rfl, h.1.symm⟩
  | getDisplay =>
    simp only [Session.call, Host.Outcome.next.injEq, Prod.mk.injEq] at h
    exact .inr <| .inr <| .inr <| .inr <| .inr ⟨h.1.symm, nofun⟩
  | getSoundTimer =>
    simp only [Session.call, Host.Outcome.next.injEq, Prod.mk.injEq] at h
    exact .inr <| .inr <| .inr <| .inr <| .inr ⟨h.1.symm, nofun⟩

/-- Packaged induction: what holds of the constructed session and is kept by every host operation holds of every session
reached. -/
theorem run_induction {P : Session → Prop}
    (hstep : ∀ op S S' r, P S → Session.call op S = .next (S', r) → P S') :
    ∀ {ops S S' rs}, P S → Session.run ops S = .next (S', rs) → P S' := by
  intro ops
  induction ops with
  | nil => intro S S' rs hP h; simp only [Session.run, Host.Outcome.next.injEq, Prod.mk.injEq] at h; exact h.1 ▸ hP
  | cons op ops ih =>
    intro S S' rs hP h
    simp only [Session.run] at h
    split at h
    · next S1 r1 h1 =>
      split at h
      · next S2 rs2 h2 =>
        simp only [Host.Outcome.next.injEq, Prod.mk.injEq] at h
        exact h.1 ▸ ih (hstep _ _ _ _ hP h1) h2
      · cases h
      · cases h
    · cases h
    · cases h

end Sys2Proof.Machine
end

