-- ==== Sys2Proof/Tests/Slice0.lean ====
section
/-! SUPPORT. Tests of the model: small steps with the expected results of spec/95_test_vectors.md, hand-encoded words of the
patterns in spec/30_encoding.md R64, and a witness for the hypotheses of every obligation. -/

namespace Sys2Proof.Tests

open Sys2Proof Sys2Proof.Machine

/-! ## Helpers -/

/-- The launch state with some registers set. -/
def regs (l : List (RegIx × Byte)) : State := l.foldl (fun s p => setV p.1 p.2 s) State.reset

/-- What a function reads off the state after an outcome, if there is one. -/
def seen {α : Type} (f : State → α) : Host.Outcome State Fault Refusal → Option α
  | .next t => some (f t)
  | .fault _ => none
  | .refused _ => none

/-- One step of an opcode placed at PC, and what is read off the state after it. -/
def run {α : Type} (op : Opcode) (s : State) (f : State → α) : Option α := seen f (step (placeOpcode op s))

/-- What a function reads off the CORE after a host operation, and the reply. -/
def called {α : Type} (op : HostOp) (S : Session) (f : State → α) : Option (α × Reply) :=
  match Session.call op S with
  | .next (S', r) => some (f S'.core, r)
  | .fault _ => none
  | .refused _ => none

/-- The same four things after a step: two registers, VF and PC. -/
def aluView (x : RegIx) (t : State) : Byte × Byte × Word := (getV t x, getV t 0xF#4, t.pc)

/-- A display with the given cells 1. -/
def lit (l : List Nat) : Display := l.foldl flipCell blankDisplay

/-! ## Well-formedness: a no-op whose opcode is defined is ill-formed, category by category -/

theorem test_wf_refuses_zero : Instr.wf (.nop 0x00E0#16) = false ∧ Instr.wf (.nop 0x00EE#16) = false := by decide
theorem test_wf_refuses_regop : Instr.wf (.nop 0x8014#16) = false ∧ Instr.wf (.nop 0x800E#16) = false := by decide
theorem test_wf_refuses_keyop : Instr.wf (.nop 0xE09E#16) = false ∧ Instr.wf (.nop 0xEFA1#16) = false := by decide
theorem test_wf_refuses_misc : Instr.wf (.nop 0xF033#16) = false ∧ Instr.wf (.nop 0xFF65#16) = false := by decide
theorem test_wf_refuses_other : Instr.wf (.nop 0x6005#16) = false ∧ Instr.wf (.nop 0x5121#16) = false := by decide
theorem test_wf_accepts :
    Instr.wf (.nop 0x01E0#16) = true ∧ Instr.wf (.nop 0x801F#16) = true ∧ Instr.wf (.nop 0xE09F#16) = true ∧
      Instr.wf (.nop 0xF0FF#16) = true ∧ Instr.wf (.regAdd 0xF#4 0xF#4) = true := by decide

/-! ## Decoding: for every constructor a word from its pattern in R64 -/

theorem test_decode_nop :
    decodeOpcode 0x0000#16 = .nop 0x0000#16 ∧ decodeOpcode 0x0123#16 = .nop 0x0123#16 ∧
      decodeOpcode 0x8018#16 = .nop 0x8018#16 ∧ decodeOpcode 0xE09F#16 = .nop 0xE09F#16 ∧
      decodeOpcode 0xF0FF#16 = .nop 0xF0FF#16 := by decide
theorem test_decode_control :
    decodeOpcode 0x00EE#16 = .ret ∧ decodeOpcode 0x1234#16 = .jump 0x234#12 ∧ decodeOpcode 0x2ABC#16 = .call 0xABC#12 ∧
      decodeOpcode 0x3A12#16 = .skipEqImm 0xA#4 0x12#8 ∧ decodeOpcode 0x4B34#16 = .skipNeImm 0xB#4 0x34#8 ∧
      decodeOpcode 0x5121#16 = .skipEqReg 0x1#4 0x2#4 0x1#4 ∧ decodeOpcode 0x912F#16 = .skipNeReg 0x1#4 0x2#4 0xF#4 ∧
      decodeOpcode 0xB300#16 = .jumpOffset 0x300#12 := by decide
theorem test_decode_alu :
    decodeOpcode 0x6C05#16 = .loadImm 0xC#4 0x05#8 ∧ decodeOpcode 0x7D03#16 = .addImm 0xD#4 0x03#8 ∧
      decodeOpcode 0x8120#16 = .regMov 0x1#4 0x2#4 ∧ decodeOpcode 0x8121#16 = .regOr 0x1#4 0x2#4 ∧
      decodeOpcode 0x8122#16 = .regAnd 0x1#4 0x2#4 ∧ decodeOpcode 0x8123#16 = .regXor 0x1#4 0x2#4 ∧
      decodeOpcode 0x8124#16 = .regAdd 0x1#4 0x2#4 ∧ decodeOpcode 0x8125#16 = .regSub 0x1#4 0x2#4 ∧
      decodeOpcode 0x8126#16 = .regShr 0x1#4 0x2#4 ∧ decodeOpcode 0x8127#16 = .regSubn 0x1#4 0x2#4 ∧
      decodeOpcode 0x812E#16 = .regShl 0x1#4 0x2#4 ∧ decodeOpcode 0xC30F#16 = .random 0x3#4 0x0F#8 := by decide
theorem test_decode_memory :
    decodeOpcode 0xA2F0#16 = .loadIndex 0x2F0#12 ∧ decodeOpcode 0xF21E#16 = .addIndex 0x2#4 ∧
      decodeOpcode 0xF429#16 = .fontChar 0x4#4 ∧ decodeOpcode 0xF533#16 = .bcd 0x5#4 ∧
      decodeOpcode 0xF655#16 = .storeRegs 0x6#4 ∧ decodeOpcode 0xF765#16 = .loadRegs 0x7#4 := by decide
theorem test_decode_display :
    decodeOpcode 0x00E0#16 = .clearScreen ∧ decodeOpcode 0xD125#16 = .drawSprite 0x1#4 0x2#4 0x5#4 := by decide
theorem test_decode_timers_input :
    decodeOpcode 0xE89E#16 = .skipKeyDown 0x8#4 ∧ decodeOpcode 0xE9A1#16 = .skipKeyUp 0x9#4 ∧
      decodeOpcode 0xFA07#16 = .getDelay 0xA#4 ∧ decodeOpcode 0xFB0A#16 = .waitKey 0xB#4 ∧
      decodeOpcode 0xFC15#16 = .setDelay 0xC#4 ∧ decodeOpcode 0xFD18#16 = .setSound 0xD#4 := by decide

/-- R45: the high byte comes first; R57: a decoder consumes two bytes and leaves the rest. -/
theorem test_decode_bytes :
    decode [0x80#8, 0x14#8, 0x12#8] = .ok (.regAdd 0x0#4 0x1#4, [0x12#8]) ∧ encodeBytes (.jump 0x234#12) = [0x12#8, 0x34#8] := by
  decide
theorem test_decode_one_byte : decode [0x60#8] = .error .truncated := by decide
theorem test_decode_table_word :
    decodeTableWord 16 0x6005 = some (.loadImm 0x0#4 0x05#8) ∧ decodeTableWord 8 0xE0 = some .clearScreen ∧
      decodeTableWord 24 0x6005 = none := by decide

/-! ## The execution cycle (X rows) -/

/-- X1. -/
theorem test_nop_X1 : run 0x0000#16 State.reset (fun t => t == { placeOpcode 0x0000#16 State.reset with pc := 0x202#16 }) = some true := by
  decide
/-- X4. -/
theorem test_nop_X4 : run 0x8018#16 (regs [(0, 1), (1, 2)]) (fun t => (getV t 0, getV t 1, t.pc)) = some (1, 2, 0x202#16) := by
  decide
/-- X8. -/
theorem test_fetch_X8 : step { State.reset with pc := 0xFFF#16 } =
    .next { State.reset with pc := 0xFFF#16, fault := some .memoryAccessViolation } := rfl
/-- X9. -/
theorem test_fetch_X9 : run 0x6005#16 { State.reset with pc := 0xFFE#16 } (aluView 0) = some (0x05, 0, 0x1000#16) := by decide
/-- X10. -/
theorem test_fetch_X10 : run 0x6007#16 { State.reset with pc := 0x201#16 } (aluView 0) = some (0x07, 0, 0x203#16) := by decide
/-- X11. -/
theorem test_halted_X11 : step { State.reset with fault := some .stackOverflow } = .fault (.halted .stackOverflow) := rfl
/-- A word of the opcode table placed on a halted CORE runs at the next step. -/
theorem test_withFetchWord :
    seen (aluView 0) (step (State.withFetchWord { State.reset with fault := some .stackUnderflow } 16 0x6005)) =
      some (0x05, 0, 0x202#16) := by decide

/-! ## Control transfer (T rows) -/

/-- T1. -/
theorem test_ret_T1 : run 0x00EE#16 State.reset (fun t => (t.pc, t.sp, t.fault)) = some (0x202#16, 0, some .stackUnderflow) := by
  decide
/-- T2. -/
theorem test_ret_T2 :
    run 0x00EE#16 { State.reset with sp := 1, stack := State.reset.stack.set 0 0x204#16 } (fun t => (t.pc, t.sp, t.fault)) =
      some (0x204#16, 0, none) := by decide
/-- T3. -/
theorem test_jump_T3 : run 0x1234#16 State.reset (·.pc) = some 0x234#16 := by decide
/-- T5. -/
theorem test_jump_T5 : run 0x1FFF#16 State.reset (·.pc) = some 0xFFF#16 := by decide
/-- T7. -/
theorem test_call_T7 :
    run 0x2300#16 { State.reset with sp := 15 } (fun t => (t.pc, t.sp, t.stack[15], t.stack[14])) =
      some (0x300#16, 16, 0x202#16, 0#16) := by decide
/-- T8. -/
theorem test_call_T8 :
    run 0x2300#16 { State.reset with sp := 16 } (fun t => (t.pc, t.sp, t.fault)) = some (0x202#16, 16, some .stackOverflow) := by
  decide
/-- T9 and T10. -/
theorem test_skipEqImm_T9 :
    run 0x3312#16 (regs [(3, 0x12)]) (·.pc) = some 0x204#16 ∧ run 0x3313#16 (regs [(3, 0x12)]) (·.pc) = some 0x202#16 := by decide
/-- T22. -/
theorem test_skipEqImm_T22 : run 0x3F01#16 { regs [(0xF, 1)] with pc := 0xFFE#16 } (·.pc) = some 0x1002#16 := by decide
/-- T11 and T12. -/
theorem test_skipNeImm_T11 :
    run 0x4312#16 (regs [(3, 0x12)]) (·.pc) = some 0x202#16 ∧ run 0x4300#16 (regs [(3, 0x12)]) (·.pc) = some 0x204#16 := by decide
/-- T14. -/
theorem test_skipEqReg_T14 : run 0x5121#16 (regs [(1, 7), (2, 7)]) (·.pc) = some 0x204#16 := by decide
/-- T15. -/
theorem test_skipEqReg_T15 : run 0x5120#16 (regs [(1, 7), (2, 8)]) (·.pc) = some 0x202#16 := by decide
/-- T17. -/
theorem test_skipNeReg_T17 : run 0x9120#16 (regs [(1, 7), (2, 8)]) (·.pc) = some 0x204#16 := by decide
/-- T18. -/
theorem test_skipNeReg_T18 : run 0x912F#16 (regs [(1, 7), (2, 7)]) (·.pc) = some 0x202#16 := by decide
/-- T20. -/
theorem test_jumpOffset_T20 : run 0xB300#16 (regs [(0, 0x10)]) (·.pc) = some 0x310#16 := by decide
/-- T21. -/
theorem test_jumpOffset_T21 : run 0xBFFF#16 (regs [(0, 0xFF)]) (·.pc) = some 0x10FE#16 := by decide

/-! ## ALU (A rows) -/

/-- A1. -/
theorem test_loadImm_A1 : run 0x6005#16 State.reset (aluView 0) = some (0x05, 0, 0x202#16) := by decide
/-- A2. -/
theorem test_addImm_A2 : run 0x7203#16 (regs [(2, 0xFE)]) (aluView 2) = some (0x01, 0, 0x202#16) := by decide
/-- A4. -/
theorem test_addImm_A4 : run 0x7FFF#16 (regs [(0xF, 0x01)]) (aluView 0) = some (0, 0x00, 0x202#16) := by decide
/-- A5. -/
theorem test_regMov_A5 : run 0x8010#16 (regs [(1, 0x33)]) (aluView 0) = some (0x33, 0, 0x202#16) := by decide
/-- A6. -/
theorem test_regOr_A6 : run 0x8011#16 (regs [(0, 0x0F), (1, 0xF0), (0xF, 0x55)]) (aluView 0) = some (0xFF, 0x55, 0x202#16) := by
  decide
/-- A7. -/
theorem test_regAnd_A7 : run 0x8012#16 (regs [(0, 0x3C), (1, 0x0F), (0xF, 0x55)]) (aluView 0) = some (0x0C, 0x55, 0x202#16) := by
  decide
/-- A8. -/
theorem test_regXor_A8 : run 0x8013#16 (regs [(0, 0x3C), (1, 0x0F)]) (aluView 0) = some (0x33, 0, 0x202#16) := by decide
/-- A9. -/
theorem test_regXor_A9 : run 0x8003#16 (regs [(0, 0x3C)]) (aluView 0) = some (0x00, 0, 0x202#16) := by decide
/-- A12 and A13. -/
theorem test_regAdd_A12 :
    run 0x8014#16 (regs [(0, 0x80), (1, 0x7F)]) (aluView 0) = some (0xFF, 0, 0x202#16) ∧
      run 0x8014#16 (regs [(0, 0x80), (1, 0x80)]) (aluView 0) = some (0x00, 1, 0x202#16) := by decide
/-- A14 and A15. -/
theorem test_regAdd_A14 :
    run 0x8F14#16 (regs [(0xF, 0x80), (1, 0x80)]) (aluView 1) = some (0x80, 1, 0x202#16) ∧
      run 0x80F4#16 (regs [(0, 0x10), (0xF, 0xF0)]) (aluView 0) = some (0x00, 1, 0x202#16) := by decide
/-- A19 and A20. -/
theorem test_regSub_A19 :
    run 0x8015#16 (regs [(0, 3), (1, 5)]) (aluView 0) = some (0xFE, 0, 0x202#16) ∧
      run 0x8015#16 (regs [(0, 7), (1, 7)]) (aluView 0) = some (0x00, 1, 0x202#16) := by decide
/-- A21 and A22. -/
theorem test_regSub_A21 :
    run 0x8F15#16 (regs [(0xF, 3), (1, 5)]) (aluView 1) = some (5, 0, 0x202#16) ∧
      run 0x8F15#16 (regs [(0xF, 9), (1, 5)]) (aluView 1) = some (5, 1, 0x202#16) := by decide
/-- A24. -/
theorem test_regShr_A24 : run 0x8016#16 (regs [(0, 0x04), (1, 0xFF)]) (aluView 0) = some (0x02, 0, 0x202#16) := by decide
/-- A23 and A25. -/
theorem test_regShr_A23 :
    run 0x8016#16 (regs [(0, 0x05)]) (aluView 0) = some (0x02, 1, 0x202#16) ∧
      run 0x8F06#16 (regs [(0xF, 0x03)]) (aluView 0) = some (0, 1, 0x202#16) := by decide
/-- A27 and A28. -/
theorem test_regSubn_A27 :
    run 0x8017#16 (regs [(0, 3), (1, 5)]) (aluView 0) = some (0x02, 1, 0x202#16) ∧
      run 0x8017#16 (regs [(0, 5), (1, 3)]) (aluView 0) = some (0xFE, 0, 0x202#16) := by decide
/-- A29. -/
theorem test_regSubn_A29 : run 0x8F17#16 (regs [(0xF, 3), (1, 5)]) (aluView 1) = some (5, 1, 0x202#16) := by decide
/-- A30 and A31. -/
theorem test_regShl_A30 :
    run 0x801E#16 (regs [(0, 0x81)]) (aluView 0) = some (0x02, 1, 0x202#16) ∧
      run 0x801E#16 (regs [(0, 0x40)]) (aluView 0) = some (0x80, 0, 0x202#16) := by decide
/-- A32 and A33. -/
theorem test_regShl_A32 :
    run 0x8F0E#16 (regs [(0xF, 0x80)]) (aluView 0) = some (0, 1, 0x202#16) ∧
      run 0x8F0E#16 (regs [(0xF, 0x40)]) (aluView 0) = some (0, 0, 0x202#16) := by decide
/-- A34, with the draw r named by its place in the sequence. -/
theorem test_random_A34 :
    run 0xC30F#16 State.reset (fun t => (getV t 3, t.rng)) = some (Config.randomByte 0 &&& 0x0F#8, 1) := rfl
/-- A36: the next draw is another place of the sequence. -/
theorem test_random_A36 :
    run 0xC3FF#16 { State.reset with rng := 1 } (fun t => (getV t 3, t.rng)) = some (Config.randomByte 1 &&& 0xFF#8, 2) := rfl

/-! ## Index and memory block (M rows) -/

/-- Three bytes of memory from an address on, and I. -/
def memView (a : Nat) (t : State) : List Byte × Word := ([readMem t a, readMem t (a + 1), readMem t (a + 2)], t.i)

/-- M1. -/
theorem test_loadIndex_M1 : run 0xA2F0#16 State.reset (·.i) = some 0x2F0#16 := by decide
/-- M3 and M4. -/
theorem test_addIndex_M3 :
    run 0xF01E#16 { regs [(0, 1)] with i := 0xFFF#16 } (·.i) = some 0x1000#16 ∧
      run 0xF01E#16 { regs [(0, 1)] with i := 0xFFFF#16 } (·.i) = some 0x0000#16 := by decide
/-- M5. -/
theorem test_addIndex_M5 :
    run 0xFF1E#16 { regs [(0xF, 5)] with i := 0x300#16 } (fun t => (t.i, getV t 0xF)) = some (0x305#16, 5) := by decide
/-- M6. -/
theorem test_fontChar_M6 :
    run 0xF429#16 (regs [(4, 0x0B)]) (·.i) = some (BitVec.ofNat 16 (Config.fontBase.val + 55)) := rfl
/-- M7. -/
theorem test_fontChar_M7 :
    run 0xF029#16 (regs [(0, 0x1A)]) (·.i) = some (BitVec.ofNat 16 (Config.fontBase.val + 50)) := rfl
/-- M8 and M9. -/
theorem test_bcd_M8 :
    run 0xF033#16 { regs [(0, 156)] with i := 0x300#16 } (memView 0x300) = some ([1, 5, 6], 0x300#16) ∧
      run 0xF033#16 { regs [(0, 255)] with i := 0x300#16 } (memView 0x300) = some ([2, 5, 5], 0x300#16) := by decide
/-- M11 and M12. -/
theorem test_bcd_M11 :
    run 0xF033#16 { regs [(0, 7)] with i := 0xFFD#16 } (memView 0xFFD) = some ([0, 0, 7], 0xFFD#16) ∧
      run 0xF033#16 { regs [(0, 7)] with i := 0xFFE#16 } (fun t => (t.pc, t.fault, getV t 0)) =
        some (0x202#16, some .memoryAccessViolation, 7) := by decide
/-- M13 and M14. -/
theorem test_storeRegs_M13 :
    run 0xF255#16 { regs [(0, 1), (1, 2), (2, 3), (3, 4)] with i := 0x3FF#16 } (memView 0x400) = some ([2, 3, 0], 0x3FF#16) ∧
      run 0xF055#16 { regs [(0, 9)] with i := 0xFFF#16 } (fun t => (readMem t 0xFFF, t.fault)) = some (9, none) := by decide
/-- M15 and M16. -/
theorem test_storeRegs_M15 :
    run 0xF155#16 { State.reset with i := 0xFFF#16 } (fun t => (t.pc, t.fault)) = some (0x202#16, some .memoryAccessViolation) ∧
      run 0xFF55#16 { State.reset with i := 0xFF1#16 } (·.fault) = some (some .memoryAccessViolation) := by decide
/-- M17. -/
theorem test_loadRegs_M17 :
    run 0xF165#16 { storeBytes 0x400 [0xAB, 0xCD, 0xEF] State.reset with i := 0x400#16 }
      (fun t => (getV t 0, getV t 1, getV t 2, t.i)) = some (0xAB, 0xCD, 0, 0x400#16) := by decide
/-- M18 and M19. -/
theorem test_loadRegs_M18 :
    run 0xFF65#16 { storeBytes 0x40F [0x77] State.reset with i := 0x400#16 } (fun t => (getV t 0xE, getV t 0xF)) =
        some (0, 0x77) ∧
      run 0xF165#16 { State.reset with i := 0xFFF#16 } (fun t => (t.pc, t.fault, getV t 2)) =
        some (0x202#16, some .memoryAccessViolation, 0) := by decide

/-! ## Display (D rows) -/

/-- D1. -/
theorem test_clearScreen_D1 :
    run 0x00E0#16 { regs [(0xF, 9)] with display := lit [0, 63, 2047] } (fun t => (t.display == blankDisplay, getV t 0xF)) =
      some (true, 9) := by decide
/-- D2 and D3: columns and rows wrap. -/
theorem test_draw_D2 :
    run 0xD011#16 { storeBytes 0x300 [0xC0] (regs [(0, 63), (1, 0)]) with i := 0x300#16 }
        (fun t => (t.display == lit [63, 0], getV t 0xF)) = some (true, 0) ∧
      run 0xD012#16 { storeBytes 0x300 [0x80, 0x80] (regs [(0, 0), (1, 31)]) with i := 0x300#16 }
        (fun t => (t.display == lit [1984, 0], getV t 0xF)) = some (true, 0) := by decide
/-- D4 and D7: a collision, and a column read from VF before it is cleared. -/
theorem test_draw_D4 :
    run 0xD011#16 { storeBytes 0x300 [0xFF] (regs [(0, 66), (1, 33)]) with i := 0x300#16, display := lit [66] }
        (fun t => (t.display == lit [67, 68, 69, 70, 71, 72, 73], getV t 0xF)) = some (true, 1) ∧
      run 0xDF11#16 { storeBytes 0x300 [0x80] (regs [(0xF, 5), (1, 2)]) with i := 0x300#16 }
        (fun t => (t.display == lit [133], getV t 0xF)) = some (true, 0) := by decide

/-! ## Timers and input (K rows) -/

/-- K2 and K3. -/
theorem test_skipKeyDown_K2 :
    run 0xE09E#16 { regs [(0, 0x15)] with keys := 0x0020#16 } (·.pc) = some 0x204#16 ∧
      run 0xE09E#16 (regs [(0, 5)]) (·.pc) = some 0x202#16 := by decide
/-- K4 and K5. -/
theorem test_skipKeyUp_K4 :
    run 0xE0A1#16 (regs [(0, 5)]) (·.pc) = some 0x204#16 ∧
      run 0xE0A1#16 { regs [(0, 5)] with keys := 0x0020#16 } (·.pc) = some 0x202#16 := by decide
/-- K6. -/
theorem test_getDelay_K6 : run 0xF207#16 { State.reset with dt := 0x3C } (fun t => (getV t 2, t.dt)) = some (0x3C, 0x3C) := by
  decide
/-- K7 and K9. -/
theorem test_waitKey_K7 :
    run 0xF10A#16 { State.reset with keys := 0x0028#16 } (fun t => (getV t 1, t.pc)) = some (0x03, 0x202#16) ∧
      run 0xFF0A#16 { State.reset with keys := 0x8000#16 } (fun t => (getV t 0xF, t.pc)) = some (0x0F, 0x202#16) := by decide
/-- K8. -/
theorem test_waitKey_K8 : run 0xF10A#16 State.reset (fun t => t == placeOpcode 0xF10A#16 State.reset) = some true := by decide
/-- K10. -/
theorem test_setDelay_K10 : run 0xF015#16 (regs [(0, 0x3C)]) (fun t => (t.dt, t.st)) = some (0x3C, 0) := by decide
/-- K11. -/
theorem test_setSound_K11 :
    run 0xF018#16 (regs [(0, 0x02)]) (fun t => (t.dt, t.st, getSoundTimer t, soundActive t)) = some (0, 2, 2, true) := by decide

/-! ## Host operations (K and H rows) -/

/-- K12 and K13. -/
theorem test_decrement_K12 :
    (fun t => (t.dt, t.st)) (decrementTimers { State.reset with dt := 2, st := 0 }) = (1, 0) ∧
      (fun t => (t.dt, t.st)) (decrementTimers { State.reset with dt := 0, st := 1 }) = (0, 0) := by decide
/-- K14 to K17. -/
theorem test_keys_K14 :
    (pressKey 0x10 State.reset).keys = 0 ∧ (pressKey 0xF State.reset).keys = 0x8000#16 ∧
      (releaseKey 3 { State.reset with keys := 0x0008#16 }).keys = 0 ∧
      (releaseKey 0xFF { State.reset with keys := 0x0008#16 }).keys = 0x0008#16 := by decide
/-- S3 and H1. -/
theorem test_load_S3 :
    called (.load [0xAB, 0xCD]) Session.construct (fun t => [readMem t 0x200, readMem t 0x201, readMem t 0x202]) =
        some ([0xAB, 0xCD, 0], .ok) ∧
      called (.load []) Session.construct (fun t => t == State.reset) = some (true, .ok) := by decide
/-- H2. -/
theorem test_load_H2 :
    Session.call (.load (List.replicate 3585 0xFF)) Session.construct = .next (Session.construct, .loadErr .tooLarge) := by
  have h : (List.replicate 3585 (0xFF : Byte)).length > Config.maxProgram := by rw [List.length_replicate]; decide
  generalize List.replicate 3585 (0xFF : Byte) = bytes at h ⊢
  simp only [Session.call, loadBytes, Session.construct, if_pos h, Bool.false_eq_true, if_false]
/-- H3. -/
theorem test_load_H3 :
    seen (fun t => [readMem t 0x200, readMem t 0x201, readMem t 0x202, readMem t 0x203])
      (.next (storeBytes 0x200 [0x11, 0x22] (storeBytes 0x200 [1, 2, 3, 4] State.reset))) = some [0x11, 0x22, 3, 4] := by decide
/-- H4. -/
theorem test_load_H4 : Session.call (.load []) { core := State.reset, stepped := true } = .refused .loadAfterStep := rfl
/-- H5. -/
theorem test_getDisplay_H5 :
    (getDisplay { State.reset with display := lit [63, 0] })[0] = true ∧
      (getDisplay { State.reset with display := lit [63, 0] })[63] = true ∧
      (getDisplay { State.reset with display := lit [63, 0] })[1] = false := by
  simp only [getDisplay, Vector.getElem_ofFn]; decide

/-! ## Witnesses: states and operands that meet the hypotheses of the obligations, at the boundaries of their clauses -/

/-- `DecodeUndoesEncode`: a defined form with its ignored nibble set, and a no-op. -/
theorem witness_DecodeUndoesEncode :
    Instr.wf (.skipEqReg 0x1#4 0x2#4 0xF#4) = true ∧ Instr.wf (.nop 0x8018#16) = true := by decide

/-- `UndefinedOpcodesAreNoOps`: each category clause, at a defined and at an undefined opcode beside it. -/
theorem witness_UndefinedOpcodesAreNoOps :
    (BitVec.toNat 0x00E0#16 / 0x1000 = 0 ∧ decodeOpcode 0x00E0#16 ≠ .nop 0x00E0#16 ∧ decodeOpcode 0x00E1#16 = .nop 0x00E1#16) ∧
    (BitVec.toNat 0x8007#16 / 0x1000 = 8 ∧ decodeOpcode 0x8007#16 ≠ .nop 0x8007#16 ∧ decodeOpcode 0x8008#16 = .nop 0x8008#16) ∧
    (BitVec.toNat 0xE0A1#16 / 0x1000 = 0xE ∧ decodeOpcode 0xE0A1#16 ≠ .nop 0xE0A1#16 ∧ decodeOpcode 0xE0A2#16 = .nop 0xE0A2#16) ∧
    (BitVec.toNat 0xFF65#16 / 0x1000 = 0xF ∧ decodeOpcode 0xFF65#16 ≠ .nop 0xFF65#16 ∧ decodeOpcode 0xFFFF#16 = .nop 0xFFFF#16) ∧
    BitVec.toNat 0x7FFF#16 / 0x1000 ∉ [0, 8, 0xE, 0xF] := by decide

/-- `FetchIsBigEndian`: the highest PC that fetches. -/
theorem witness_FetchIsBigEndian : (State.pc { State.reset with pc := 0xFFE#16 }).toNat ≤ 0xFFE := by decide

/-- `StepRunsDecodedInstruction`: halted; PC just too high; the highest PC that fetches, with a decoded instruction. -/
theorem witness_StepRunsDecodedInstruction :
    State.fault { State.reset with fault := some .stackOverflow } = some .stackOverflow ∧
    (State.fault { State.reset with pc := 0xFFF#16 } = none ∧ 0xFFE < (State.pc { State.reset with pc := 0xFFF#16 }).toNat) ∧
    (fun s : State => s.fault = none ∧ s.pc.toNat ≤ 0xFFE ∧
      decode [readMem s s.pc.toNat, readMem s (s.pc.toNat + 1)] = .ok (.loadImm 0x0#4 0x05#8, []))
        (placeOpcode 0x6005#16 { State.reset with pc := 0xFFE#16 }) := by decide

/-- `PlacedWordRunsNext`: the highest PC that fetches, and a whole opcode. -/
theorem witness_PlacedWordRunsNext : (State.pc { State.reset with pc := 0xFFE#16 }).toNat ≤ 0xFFE ∧ 16 ≤ 16 := by decide

/-- `UndefinedOpcodeStep`. -/
theorem witness_UndefinedOpcodeStep :
    decodeOpcode 0xF0FF#16 = .nop 0xF0FF#16 ∧ (placeOpcode 0xF0FF#16 State.reset).fault = none ∧
      (placeOpcode 0xF0FF#16 State.reset).pc.toNat ≤ 0xFFE ∧ opcodeAtPc (placeOpcode 0xF0FF#16 State.reset) = 0xF0FF#16 := by
  decide

/-- `ConstructionState`: the last cell, and an address above the font wherever FONT_BASE is. -/
theorem witness_ConstructionState : 2047 < 2048 ∧ Config.fontBase.val + 80 ≤ 0x200 :=
  ⟨by decide, by have := Config.fontBase.isLt; omega⟩

/-- `ReturnPopsPc`: one entry, sixteen entries, none. -/
theorem witness_ReturnPopsPc :
    (State.sp { State.reset with sp := 1 }).val = (0 : Fin 16).val + 1 ∧
      (State.sp { State.reset with sp := 16 }).val = (15 : Fin 16).val + 1 ∧ State.reset.sp.val = 0 := by decide

/-- `CallPushesPc`: an empty stack, one free entry, a full stack. -/
theorem witness_CallPushesPc :
    State.reset.sp.val = (0 : Fin 16).val ∧ (State.sp { State.reset with sp := 15 }).val = (15 : Fin 16).val ∧
      (State.sp { State.reset with sp := 16 }).val = 16 ∧ (14 : Fin 16) ≠ 15 := by decide

/-- `LoadImmediateAndMove`, `AddImmediateWraps`, `LogicOperations`, `GetDelayReadsTimer`: another register than x. -/
theorem witness_RegWrite : (0x0#4 : RegIx) ≠ 0xF#4 ∧ (0xE#4 : RegIx) ≠ 0xF#4 ∧ 7 < 8 := by decide

/-- `AddSetsCarry`, `SubtractSetsNotBorrow`, `ShiftsSetShiftedOutBit`: x is not VF, and a register that is neither. -/
theorem witness_RegFlagWrite : (0xE#4 : RegIx) ≠ 0xF#4 ∧ (0x0#4 : RegIx) ≠ 0xE#4 ∧ (0x0#4 : RegIx) ≠ 0xF#4 := by decide

/-- `RandomIsMaskedDraw`: a mask bit that is 0, and another register than x. -/
theorem witness_RandomIsMaskedDraw : 7 < 8 ∧ BitVec.getLsbD 0x0F#8 7 = false ∧ (0x0#4 : RegIx) ≠ 0x3#4 := by decide

/-- `BcdWritesDigits`: the highest legal I with an address on either side of the digits, and the lowest illegal I. -/
theorem witness_BcdWritesDigits :
    BitVec.toNat 0xFFD#16 + 2 ≤ 0xFFF ∧ (0xFFC < BitVec.toNat 0xFFD#16 ∨ BitVec.toNat 0xFFD#16 + 2 < 0xFFC) ∧
      (0x1000 < BitVec.toNat 0xFFD#16 ∨ BitVec.toNat 0xFFD#16 + 2 < 0x1000) ∧ BitVec.toNat 0xFFE#16 + 2 > 0xFFF := by decide

/-- `StoreRegsCopiesRegisters` and `LoadRegsCopiesMemory`: the highest legal I for x = F and for x = 0 with an address below and
a register above, and the lowest illegal I. -/
theorem witness_RegisterBlocks :
    BitVec.toNat 0xFF0#16 + BitVec.toNat 0xF#4 ≤ 0xFFF ∧ BitVec.toNat 0xFFF#16 + BitVec.toNat 0x0#4 ≤ 0xFFF ∧
      BitVec.toNat 0xF#4 ≤ BitVec.toNat 0xF#4 ∧ BitVec.toNat 0x0#4 < BitVec.toNat 0x1#4 ∧ 0xFEF < BitVec.toNat 0xFF0#16 ∧
      BitVec.toNat 0xFF1#16 + BitVec.toNat 0xF#4 > 0xFFF ∧ BitVec.toNat 0x1000#16 + BitVec.toNat 0x0#4 > 0xFFF := by decide

/-- `StoredRegistersAreFetched`: the last opcode of memory. -/
theorem witness_StoredRegistersAreFetched : 1 ≤ BitVec.toNat 0x1#4 ∧ BitVec.toNat 0xFFE#16 + BitVec.toNat 0x1#4 ≤ 0xFFF := by decide

/-- A sprite row 0x80 at 0x300, drawn at column 5 and row 2, over a display with the given cells 1. -/
def spriteAt (l : List Nat) : State := { storeBytes 0x300 [0x80] (regs [(0, 5), (1, 2)]) with i := 0x300#16, display := lit l }

theorem spriteAt_covers (l : List Nat) : SpriteCovers (spriteAt l) 0x0#4 0x1#4 1 133 :=
  ⟨0, by decide, 0, by decide, by show BitVec.getLsbD (readMem (spriteAt []) 0x300) 7 = true; decide,
    show 133 = _ by show _ = (((getV (spriteAt []) 0x1#4).toNat % 32 + 0) % 32) * 64 + ((getV (spriteAt []) 0x0#4).toNat % 64 + 0) % 64; decide⟩

theorem spriteAt_not_covers (l : List Nat) : ¬ SpriteCovers (spriteAt l) 0x0#4 0x1#4 1 0 := by
  rintro ⟨r, hr, c, -, -, h⟩
  obtain rfl : r = 0 := by omega
  have h : 0 = (((getV (spriteAt []) 0x1#4).toNat % 32 + 0) % 32) * 64 + ((getV (spriteAt []) 0x0#4).toNat % 64 + c) % 64 := h
  rw [show (getV (spriteAt []) 0x1#4).toNat = 2 by decide] at h
  omega

/-- `DrawXorsSprite`, `DrawTwiceRestoresDisplay`, `FlagWriters`: a covered cell that is 1 (a collision), a covered cell that
is 0 and no collision, and a cell not covered. -/
theorem witness_DrawXorsSprite :
    (∃ k < 2048, SpriteCovers (spriteAt [133]) 0x0#4 0x1#4 (BitVec.toNat 0x1#4) k ∧ cell (spriteAt [133]) k = true) ∧
    (¬ ∃ k < 2048, SpriteCovers (spriteAt []) 0x0#4 0x1#4 (BitVec.toNat 0x1#4) k ∧ cell (spriteAt []) k = true) ∧
    (∃ k < 2048, SpriteCovers (spriteAt []) 0x0#4 0x1#4 (BitVec.toNat 0x1#4) k ∧ cell (spriteAt []) k = false) ∧
    ¬ SpriteCovers (spriteAt []) 0x0#4 0x1#4 (BitVec.toNat 0x1#4) 0 :=
  ⟨⟨133, by decide, spriteAt_covers _, by decide⟩,
    fun ⟨k, _, _, h⟩ => by simp [cell, spriteAt, lit] at h, ⟨133, by decide, spriteAt_covers _, by decide⟩, spriteAt_not_covers _⟩

/-- The range premise of the draw statements: no rows at the top of memory and above it, the last row that fits, and the first
draw that does not. -/
theorem witness_DrawRange :
    ¬ (BitVec.toNat 0x0#4 > 0 ∧ BitVec.toNat 0xFFFF#16 + BitVec.toNat 0x0#4 - 1 > 0xFFF) ∧
    ¬ (BitVec.toNat 0x1#4 > 0 ∧ BitVec.toNat 0xFFF#16 + BitVec.toNat 0x1#4 - 1 > 0xFFF) ∧
    (BitVec.toNat 0x2#4 > 0 ∧ BitVec.toNat 0xFFF#16 + BitVec.toNat 0x2#4 - 1 > 0xFFF) ∧
    (0x0#4 : RegIx) ≠ 0xF#4 ∧ (0x1#4 : RegIx) ≠ 0xF#4 := by decide

/-- The error clause of `DrawXorsSprite`: a cell outside the sprite. -/
theorem witness_SpriteArea : ¬ SpriteArea { State.reset with i := 0xFFF#16 } 0x0#4 0x1#4 (BitVec.toNat 0x2#4) 128 := by
  rintro ⟨r, hr, c, -, h⟩
  have h : 128 = (((getV State.reset 0x1#4).toNat % 32 + r) % 32) * 64 + ((getV State.reset 0x0#4).toNat % 64 + c) % 64 := h
  rw [show (getV State.reset 0x1#4).toNat = 0 by decide] at h
  have hr : r < 2 := hr
  omega

/-- `SpriteCellsAreDistinct`: the tallest sprite. -/
theorem witness_SpriteCellsAreDistinct : (List.replicate 15 (0xFF : Byte)).length ≤ 15 := by decide

/-- `WaitKeyTakesLowestKey`: no key; the highest key alone, with a lower one that is not held. -/
theorem witness_WaitKeyTakesLowestKey :
    State.reset.keys = 0 ∧ State.keys { State.reset with keys := 0x8000#16 } ≠ 0 ∧ BitVec.getLsbD 0x8000#16 15 = true ∧
      BitVec.getLsbD 0x8000#16 14 = false := by decide

/-- The invariant, as a decision. -/
theorem stateInv_of {s : State} (h1 : s.mem.wf = true) (h2 : s.pc.toNat ≤ 0x10FE)
    (h3 : ∀ j : Fin 16, j.val < s.sp.val → s.stack[j].toNat ≤ 0x1000) : StateInv s := ⟨h1, h2, h3⟩

/-- `StepKeepsInvariant`: a call from the last PC that fetches, one entry being free; the pushed address is 0x1000. -/
theorem witness_StepKeepsInvariant :
    StateInv (placeOpcode 0x2300#16 { State.reset with pc := 0xFFE#16, sp := 15 }) ∧
      run 0x2300#16 { State.reset with pc := 0xFFE#16, sp := 15 } (fun t => t.stack[15]) = some 0x1000#16 :=
  ⟨stateInv_of (by decide) (by decide) (by decide), by decide⟩

/-- `StepKeepsInvariant`: the highest PC that a step gives, from which the fetch fails. -/
theorem witness_StepKeepsInvariant_fetch :
    StateInv { State.reset with pc := 0x10FE#16 } ∧
      step { State.reset with pc := 0x10FE#16 } =
        .next { State.reset with pc := 0x10FE#16, fault := some .memoryAccessViolation } :=
  ⟨stateInv_of (by decide) (by decide) (by decide), rfl⟩

/-- `PcAfterStep`, `StepNeverChangesKeys`: steps that return Ok, among them a taken skip and a return from a full stack. -/
theorem witness_PcAfterStep :
    run 0x3000#16 State.reset (fun t => (t.fault, t.pc)) = some (none, 0x204#16) ∧
      run 0x00EE#16 { State.reset with sp := 16, stack := State.reset.stack.set 15 0x1000#16 } (fun t => (t.fault, t.pc)) =
        some (none, 0x1000#16) := by decide

/-- `FlagWriters` and `OnlyListedPartsAreWritten`: an instruction that does not list VF, and one that raises nothing. -/
theorem witness_OnlyListedPartsAreWritten :
    ¬ Writes (.addImm 0x0#4 0xFF#8) 0xF#4 ∧ (∀ e, ¬ Raises (.addImm 0x0#4 0xFF#8) State.reset e) ∧
      exec (.addImm 0x0#4 0xFF#8) State.reset = .next (setV 0x0#4 0xFF#8 State.reset) := by
  refine ⟨by simp [Writes], nofun, ?_⟩
  show Host.Outcome.next _ = _
  congr 1

/-- `OnlyTheHostCountsTimers`: a step that sets DT, a step that leaves it, and a host operation that is neither. -/
theorem witness_OnlyTheHostCountsTimers :
    run 0xF015#16 (regs [(0, 0x3C)]) (·.dt) = some 0x3C ∧ run 0x6005#16 { State.reset with dt := 9 } (·.dt) = some 9 ∧
      called (.pressKey 0xF) Session.construct (·.keys) = some (0x8000#16, .done) ∧ HostOp.pressKey 0xF ≠ .step ∧
      HostOp.pressKey 0xF ≠ .decrementTimers := by decide

/-- `StepRaisesExactlyTheTable` and `StateAfterError`: a state that raises, for each row of the error table: the fetch and the
six instructions, each at the boundary of its condition. -/
theorem witness_StateAfterError :
    seen (·.fault) (step { State.reset with pc := 0xFFF#16 }) = some (some .memoryAccessViolation) ∧
    run 0xD012#16 { State.reset with i := 0xFFF#16 } (·.fault) = some (some .memoryAccessViolation) ∧
    run 0xF033#16 { State.reset with i := 0xFFE#16 } (·.fault) = some (some .memoryAccessViolation) ∧
    run 0xF055#16 { State.reset with i := 0x1000#16 } (·.fault) = some (some .memoryAccessViolation) ∧
    run 0xFF65#16 { State.reset with i := 0xFF1#16 } (·.fault) = some (some .memoryAccessViolation) ∧
    run 0x2300#16 { State.reset with sp := 16 } (·.fault) = some (some .stackOverflow) ∧
    run 0x00EE#16 State.reset (·.fault) = some (some .stackUnderflow) := by decide

/-- `HaltedCoreStaysHalted`: a halted CORE, on which an operation other than `step` and `load` answers. -/
theorem witness_HaltedCoreStaysHalted :
    called .decrementTimers { core := { State.reset with fault := some .stackOverflow, dt := 2 }, stepped := true }
      (fun t => (t.fault, t.dt)) = some ((some .stackOverflow, 1), .done) := by decide

/-- `QuiescentStates`: a jump to itself at the last PC that fetches, and a wait-key with no key held. -/
theorem witness_QuiescentStates :
    (fun s : State => s.fault = none ∧ s.pc.toNat ≤ 0xFFE ∧ decodeOpcode (opcodeAtPc s) = .jump 0xFFE#12 ∧
      BitVec.toNat 0xFFE#12 = s.pc.toNat) (placeOpcode 0x1FFE#16 { State.reset with pc := 0xFFE#16 }) ∧
    (fun s : State => s.fault = none ∧ s.pc.toNat ≤ 0xFFE ∧ decodeOpcode (opcodeAtPc s) = .waitKey 0x1#4 ∧ s.keys = 0)
      (placeOpcode 0xF10A#16 State.reset) := by decide

/-- `EqualReadsGiveEqualMemories`: two memories written in another order. -/
theorem witness_EqualReadsGiveEqualMemories :
    Memory.wf (Memory.write (Memory.write [] 0x200 1) 0xFFF 2) = true ∧
      Memory.wf (Memory.write (Memory.write [] 0xFFF 2) 0x200 1) = true ∧
      ∀ a < 4096, Memory.read (Memory.write (Memory.write [] 0x200 1) 0xFFF 2) a =
        Memory.read (Memory.write (Memory.write [] 0xFFF 2) 0x200 1) a := by
  refine ⟨by decide, by decide, fun a _ => ?_⟩
  rw [show Memory.write (Memory.write [] 0x200 1) 0xFFF 2 = Memory.write (Memory.write [] 0xFFF 2) 0x200 1 by decide]

/-- `KeyOperationsSetAndClear`: the last key and the first byte that is no key. -/
theorem witness_KeyOperationsSetAndClear : BitVec.toNat 0xF#8 ≤ 0xF ∧ 0xF < BitVec.toNat 0x10#8 ∧ 15 < 16 := by decide

/-- `LoadCopiesProgram`: the shortest image refused, the longest admitted with its last byte and the address after it, and a
session that has stepped. -/
theorem witness_LoadCopiesProgram :
    Session.construct.stepped = false ∧ (List.replicate 3585 (0xFF : Byte)).length > 3584 ∧
      (List.replicate 3584 (0xFF : Byte)).length ≤ 3584 ∧ 3583 < (List.replicate 3584 (0xFF : Byte)).length ∧
      0x200 + (List.replicate 3584 (0xFF : Byte)).length ≤ 0x1000 ∧
      Session.stepped { core := State.reset, stepped := true } = true := by
  rw [List.length_replicate, List.length_replicate]; decide

/-- `GettersReadState`: the last cell. -/
theorem witness_GettersReadState : 63 < 64 ∧ 31 < 32 ∧ 31 * 64 + 63 = 2047 := by decide

/-- `HostOperationsKeepInvariant`: a load after a key press. -/
theorem witness_HostOperationsKeepInvariant :
    StateInv (pressKey 1 State.reset) ∧
      called (.load [0x12, 0x00]) { core := pressKey 1 State.reset, stepped := false } (·.keys) = some (0x0002#16, .ok) :=
  ⟨stateInv_of (by decide) (by decide) (by decide), by decide⟩

/-- `EveryReachedSessionIsSound`: a session reached by a load, in which no step has run. -/
theorem witness_EveryReachedSessionIsSound :
    Reached { core := storeBytes 0x200 [0x12, 0x00] State.reset, stepped := false } :=
  ⟨[.load [0x12, 0x00]], [.ok], rfl⟩

/-- `Launch`: the launch state of an image. -/
theorem test_launch : Launch [0x12, 0x00] { core := storeBytes 0x200 [0x12, 0x00] State.reset, stepped := false } := rfl

end Sys2Proof.Tests
end

section
/-! The byte order of a fetch (spec/20_memory.md R45): an opcode made of two bytes has the first in its high half. -/

namespace Sys2Proof

@[simp] theorem opcodeHi_opcodeOfBytes (hi lo : Byte) : opcodeHi (opcodeOfBytes hi lo) = hi :=
  BitVec.extractLsb'_append_eq_left

@[simp] theorem opcodeLo_opcodeOfBytes (hi lo : Byte) : opcodeLo (opcodeOfBytes hi lo) = lo :=
  BitVec.extractLsb'_append_eq_right

end Sys2Proof

namespace Sys2Proof.Machine

/-- Settles O6: below the fetch error the opcode is the two bytes at PC put together, and its halves are those bytes. -/
theorem fetchIsBigEndian : Obligations.FetchIsBigEndian := fun _ hpc =>
  ⟨_, fetch_of_le hpc, opcodeHi_opcodeOfBytes _ _, opcodeLo_opcodeOfBytes _ _⟩

end Sys2Proof.Machine
end

section
/-! The fields of an opcode as numbers (spec/30_encoding.md R58): each field is a quotient or a remainder of the opcode. -/

namespace Sys2Proof

theorem toNat_opC (op : Opcode) : (opC op).toNat = op.toNat / 0x1000 := by
  have hop : op.toNat < 2 ^ 16 := op.isLt
  rw [opC, BitVec.extractLsb'_toNat, Nat.shiftRight_eq_div_pow]
  exact Nat.mod_eq_of_lt (by omega)

theorem toNat_opX (op : Opcode) : (opX op).toNat = op.toNat / 0x100 % 0x10 := by
  rw [opX, BitVec.extractLsb'_toNat, Nat.shiftRight_eq_div_pow]

theorem toNat_opY (op : Opcode) : (opY op).toNat = op.toNat / 0x10 % 0x10 := by
  rw [opY, BitVec.extractLsb'_toNat, Nat.shiftRight_eq_div_pow]

theorem toNat_opN (op : Opcode) : (opN op).toNat = op.toNat % 0x10 := by
  rw [opN, BitVec.extractLsb'_toNat, Nat.shiftRight_zero]

theorem toNat_opNN (op : Opcode) : (opNN op).toNat = op.toNat % 0x100 := by
  rw [opNN, BitVec.extractLsb'_toNat, Nat.shiftRight_zero]

theorem toNat_opNNN (op : Opcode) : (opNNN op).toNat = op.toNat % 0x1000 := by
  rw [opNNN, BitVec.extractLsb'_toNat, Nat.shiftRight_zero]

/-- Decoding bytes is decoding the opcode they make up: the two halves of an opcode in front of any others. -/
@[simp] theorem decode_hi_lo (op : Opcode) (rest : List Byte) :
    decode (opcodeHi op :: opcodeLo op :: rest) = .ok (decodeOpcode op, rest) := by
  rw [decode, opcodeOfBytes_hi_lo]

end Sys2Proof

namespace Sys2Proof.Machine

/-- Settles O1: each field's number by its own lemma, and the two halves of an opcode decode as that opcode does. -/
theorem fieldsOfAnOpcode : Obligations.FieldsOfAnOpcode := fun op =>
  ⟨toNat_opC op, toNat_opX op, toNat_opY op, toNat_opN op, toNat_opNN op, toNat_opNNN op,
    fun rest => ⟨decodeOpcode op, decode_hi_lo op rest⟩⟩

end Sys2Proof.Machine
end

section
/-! Undefined opcodes (spec/40_execution_cycle.md R80): the no-op answers the state it is given, so that what a step on it
changes is what the fetch changes, which is PC. -/

namespace Sys2Proof.Machine

@[simp] theorem exec_nop (op : Opcode) (s : State) : exec (.nop op) s = .next s := rfl

/-- A step that fetches a no-op ends where its fetch does: two bytes further, with no error. -/
theorem step_of_nop {s : State} {op : Opcode} (hfault : s.fault = none) (hpc : s.pc.toNat ≤ 0xFFE)
    (hnop : decodeOpcode (opcodeAtPc s) = .nop op) : step s = .next (advancePc s) := by
  rw [step_of_fetch hfault hpc, hnop, exec_nop]

/-- Settles O9: the no-op by its arm, and the whole step by the opcode at PC, which decodes to it. -/
theorem undefinedOpcodeStep : Obligations.UndefinedOpcodeStep := fun op s hnop =>
  ⟨exec_nop op s, fun hfault hpc hop => step_of_nop hfault hpc (hop ▸ hnop)⟩

end Sys2Proof.Machine
end

section
/-! Jump and the skips on an immediate (spec/41_control_transfer.md R83, R85, R86): the opcode decodes by its category, the
meaning is one write of PC, and that write leaves every other part of the state. -/

namespace Sys2Proof

@[simp] theorem decodeOpcode_packA_jump (nnn : Addr) : decodeOpcode (packA 0x1#4 nnn) = .jump nnn := by
  simp [decodeOpcode]

@[simp] theorem decodeOpcode_packXK_skipEqImm (x : RegIx) (nn : Byte) :
    decodeOpcode (packXK 0x3#4 x nn) = .skipEqImm x nn := by
  simp [decodeOpcode]

@[simp] theorem decodeOpcode_packXK_skipNeImm (x : RegIx) (nn : Byte) :
    decodeOpcode (packXK 0x4#4 x nn) = .skipNeImm x nn := by
  simp [decodeOpcode]

end Sys2Proof

namespace Sys2Proof.Machine

@[simp] theorem exec_jump (nnn : Addr) (s : State) : exec (.jump nnn) s = .next (setPc (nnn.setWidth 16) s) := rfl

@[simp] theorem exec_skipEqImm (x : RegIx) (nn : Byte) (s : State) :
    exec (.skipEqImm x nn) s = .next (skipIf (getV s x == nn) s) := rfl

@[simp] theorem exec_skipNeImm (x : RegIx) (nn : Byte) (s : State) :
    exec (.skipNeImm x nn) s = .next (skipIf (getV s x != nn) s) := rfl

/-- A write of PC changes PC alone. -/
theorem sameBut_setPc (w : Word) (s : State) : SameBut [.pc] s (setPc w s) := by
  intro p hp
  cases p
  case pc => exact absurd List.mem_cons_self hp
  all_goals simp [Unchanged]

/-- A 12-bit address fits in PC, so widening it keeps its number. -/
theorem toNat_addr_setWidth (nnn : Addr) : (nnn.setWidth 16).toNat = nnn.toNat :=
  BitVec.toNat_setWidth_of_le (by decide)

/-- Settles O13: the jump is one write of PC, whose value is the address itself. -/
theorem jumpSetsPc : Obligations.JumpSetsPc := fun nnn s =>
  ⟨decodeOpcode_packA_jump nnn, _, exec_jump nnn s, toNat_addr_setWidth nnn, sameBut_setPc _ s⟩

/-- A skip on equality: PC advances when the two bytes agree. -/
theorem skipIf_beq_pc (a b : Byte) (s : State) :
    (skipIf (a == b) s).pc = if a = b then s.pc + 2 else s.pc := by
  simp only [skipIf_pc, beq_iff_eq]

/-- A skip on inequality: PC stays when the two bytes agree. -/
theorem skipIf_bne_pc (a b : Byte) (s : State) :
    (skipIf (a != b) s).pc = if a = b then s.pc else s.pc + 2 := by
  simp only [skipIf_pc, bne_iff_ne, ne_eq, ite_not]

/-- Settles O15: each skip is `skipIf` on its comparison, which moves PC by that comparison and changes nothing else. -/
theorem skipOnImmediate : Obligations.SkipOnImmediate := fun x nn s =>
  ⟨decodeOpcode_packXK_skipEqImm x nn, decodeOpcode_packXK_skipNeImm x nn,
    ⟨_, exec_skipEqImm x nn s, skipIf_beq_pc _ nn s, sameBut_skipIf _ s⟩,
    ⟨_, exec_skipNeImm x nn s, skipIf_bne_pc _ nn s, sameBut_skipIf _ s⟩⟩

end Sys2Proof.Machine
end

section
/-! The opcodes of the ALU (spec/30_encoding.md R62, R64): categories 6 and 7 select alone, and category 8 selects on its low
nibble. -/

namespace Sys2Proof

@[simp] theorem decodeOpcode_packXK_loadImm (x : RegIx) (nn : Byte) :
    decodeOpcode (packXK 0x6#4 x nn) = .loadImm x nn := by
  simp [decodeOpcode]

@[simp] theorem decodeOpcode_packXK_addImm (x : RegIx) (nn : Byte) :
    decodeOpcode (packXK 0x7#4 x nn) = .addImm x nn := by
  simp [decodeOpcode]

section

variable (x y : RegIx)

/-- Category 8 is decoded by its own table, on the low nibble. -/
theorem decodeOpcode_packXY_cat8 (n : BitVec 4) :
    decodeOpcode (packXY 0x8#4 x y n) = decodeRegOp (packXY 0x8#4 x y n) := by
  simp [decodeOpcode]

@[simp] theorem decodeOpcode_packXY_regMov : decodeOpcode (packXY 0x8#4 x y 0x0#4) = .regMov x y := by
  simp [decodeOpcode_packXY_cat8, decodeRegOp]

@[simp] theorem decodeOpcode_packXY_regOr : decodeOpcode (packXY 0x8#4 x y 0x1#4) = .regOr x y := by
  simp [decodeOpcode_packXY_cat8, decodeRegOp]

@[simp] theorem decodeOpcode_packXY_regAnd : decodeOpcode (packXY 0x8#4 x y 0x2#4) = .regAnd x y := by
  simp [decodeOpcode_packXY_cat8, decodeRegOp]

@[simp] theorem decodeOpcode_packXY_regXor : decodeOpcode (packXY 0x8#4 x y 0x3#4) = .regXor x y := by
  simp [decodeOpcode_packXY_cat8, decodeRegOp]

@[simp] theorem decodeOpcode_packXY_regAdd : decodeOpcode (packXY 0x8#4 x y 0x4#4) = .regAdd x y := by
  simp [decodeOpcode_packXY_cat8, decodeRegOp]

@[simp] theorem decodeOpcode_packXY_regSub : decodeOpcode (packXY 0x8#4 x y 0x5#4) = .regSub x y := by
  simp [decodeOpcode_packXY_cat8, decodeRegOp]

@[simp] theorem decodeOpcode_packXY_regShr : decodeOpcode (packXY 0x8#4 x y 0x6#4) = .regShr x y := by
  simp [decodeOpcode_packXY_cat8, decodeRegOp]

@[simp] theorem decodeOpcode_packXY_regSubn : decodeOpcode (packXY 0x8#4 x y 0x7#4) = .regSubn x y := by
  simp [decodeOpcode_packXY_cat8, decodeRegOp]

@[simp] theorem decodeOpcode_packXY_regShl : decodeOpcode (packXY 0x8#4 x y 0xE#4) = .regShl x y := by
  simp [decodeOpcode_packXY_cat8, decodeRegOp]

end

end Sys2Proof
end

section
/-! The ALU instructions with no flag (spec/42_alu.md R91-R96): each meaning is one register write. -/

namespace Sys2Proof.Machine

section

variable (x y : RegIx) (nn : Byte) (s : State)

@[simp] theorem exec_loadImm : exec (.loadImm x nn) s = .next (setV x nn s) := rfl

@[simp] theorem exec_addImm : exec (.addImm x nn) s = .next (setV x (getV s x + nn) s) := rfl

@[simp] theorem exec_regMov : exec (.regMov x y) s = .next (setV x (getV s y) s) := rfl

@[simp] theorem exec_regOr : exec (.regOr x y) s = .next (setV x (getV s x ||| getV s y) s) := rfl

@[simp] theorem exec_regAnd : exec (.regAnd x y) s = .next (setV x (getV s x &&& getV s y) s) := rfl

@[simp] theorem exec_regXor : exec (.regXor x y) s = .next (setV x (getV s x ^^^ getV s y) s) := rfl

end

/-- Settles O18: each of the two is one register write, of the immediate or of the register Vy as it was. -/
theorem loadImmediateAndMove : Obligations.LoadImmediateAndMove := fun x y nn s =>
  ⟨decodeOpcode_packXK_loadImm x nn, decodeOpcode_packXY_regMov x y,
    ⟨_, exec_loadImm x nn s, regWrite_setV x nn s⟩,
    ⟨_, exec_regMov x y s, regWrite_setV x (getV s y) s⟩⟩

/-- Settles O19: the addition of bytes is the sum of their numbers modulo 2^8, and it is written with no flag after it. -/
theorem addImmediateWraps : Obligations.AddImmediateWraps := fun x nn s =>
  ⟨decodeOpcode_packXK_addImm x nn, _, exec_addImm x nn s, BitVec.add_def (getV s x) nn ▸ regWrite_setV x _ s⟩

/-- Settles O20: each operation is one register write, whose bits are those of the bit vector operation. -/
theorem logicOperations : Obligations.LogicOperations := fun x y s =>
  ⟨decodeOpcode_packXY_regOr x y, decodeOpcode_packXY_regAnd x y, decodeOpcode_packXY_regXor x y,
    ⟨_, _, exec_regOr x y s, regWrite_setV x _ s, fun _ _ => BitVec.getLsbD_or⟩,
    ⟨_, _, exec_regAnd x y s, regWrite_setV x _ s, fun _ _ => BitVec.getLsbD_and⟩,
    ⟨_, _, exec_regXor x y s, regWrite_setV x _ s, fun _ _ => BitVec.getLsbD_xor⟩⟩

end Sys2Proof.Machine
end

section
/-! The ALU instructions with a flag (spec/42_alu.md R97-R101): the result is written first and VF last, and both are numbers
of the operands as they were. -/

namespace Sys2Proof.Machine

section

variable (x y : RegIx) (s : State)

@[simp] theorem exec_regAdd : exec (.regAdd x y) s =
    .next (setVF (carryFlag (getV s x) (getV s y)) (setV x (getV s x + getV s y) s)) := rfl

@[simp] theorem exec_regSub : exec (.regSub x y) s =
    .next (setVF (notBorrowFlag (getV s x) (getV s y)) (setV x (getV s x - getV s y) s)) := rfl

@[simp] theorem exec_regSubn : exec (.regSubn x y) s =
    .next (setVF (notBorrowFlag (getV s y) (getV s x)) (setV x (getV s y - getV s x) s)) := rfl

@[simp] theorem exec_regShr : exec (.regShr x y) s =
    .next (setVF (lsbFlag (getV s x)) (setV x (getV s x >>> 1) s)) := rfl

@[simp] theorem exec_regShl : exec (.regShl x y) s =
    .next (setVF (msbFlag (getV s x)) (setV x (getV s x <<< 1) s)) := rfl

end

/-! ## Flags as numbers of the operands -/

/-- A decided condition as the byte VF takes. -/
theorem flagByte_decide (p : Prop) [Decidable p] : flagByte (decide p) = if p then 1 else 0 := by
  simp only [flagByte, decide_eq_true_eq]

theorem carryFlag_eq (a b : Byte) : carryFlag a b = if a.toNat + b.toNat > 255 then 1 else 0 := flagByte_decide _

theorem notBorrowFlag_eq (a b : Byte) : notBorrowFlag a b = if a.toNat ≥ b.toNat then 1 else 0 := flagByte_decide _

/-- A bit as the byte VF takes is that bit's digit of the number. -/
theorem flagByte_getLsbD (a : Byte) (i : Nat) : flagByte (a.getLsbD i) = BitVec.ofNat 8 (a.toNat / 2 ^ i % 2) := by
  rw [← Nat.toNat_testBit, BitVec.testBit_toNat]
  cases a.getLsbD i <;> rfl

theorem lsbFlag_eq (a : Byte) : lsbFlag a = BitVec.ofNat 8 (a.toNat % 2) := by
  rw [lsbFlag, flagByte_getLsbD, Nat.pow_zero, Nat.div_one]

/-- Bit 7 is the top digit of a byte, so its quotient is not reduced any further. -/
theorem msbFlag_eq (a : Byte) : msbFlag a = BitVec.ofNat 8 (a.toNat / 128) := by
  have hdigit : a.toNat / 2 ^ 7 % 2 = a.toNat / 128 := by have := a.isLt; omega
  rw [msbFlag, flagByte_getLsbD, hdigit]

/-! ## Results as numbers of the operands -/

/-- The difference of bytes is the integer difference modulo 2^8. -/
theorem sub_eq_ofInt (a b : Byte) : a - b = BitVec.ofInt 8 (a.toNat - b.toNat : Int) := by
  apply BitVec.eq_of_toNat_eq
  rw [BitVec.toNat_sub, BitVec.toNat_ofInt]
  omega

theorem ushiftRight_one_eq (a : Byte) : a >>> 1 = BitVec.ofNat 8 (a.toNat / 2) := by
  have hlt : a.toNat / 2 < 2 ^ 8 := (Nat.div_le_self _ _).trans_lt a.isLt
  apply BitVec.eq_of_toNat_eq
  rw [BitVec.toNat_ushiftRight, Nat.shiftRight_eq_div_pow, BitVec.toNat_ofNat, Nat.mod_eq_of_lt hlt, Nat.pow_one]

theorem shiftLeft_one_eq (a : Byte) : a <<< 1 = BitVec.ofNat 8 (a.toNat * 2) :=
  congrArg (BitVec.ofNat 8) (Nat.shiftLeft_eq a.toNat 1)

/-- The write of a result and then of a flag, with both under the names a statement gives them. -/
theorem regFlagWrite_setVF_of_eq {x : RegIx} {r r' flag flag' : Byte} {s : State} (hr : r = r') (hflag : flag = flag') :
    RegFlagWrite x r' flag' s (setVF flag (setV x r s)) :=
  hr ▸ hflag ▸ regFlagWrite_setVF x r flag s

/-- Settles O21: the sum modulo 2^8 goes to Vx, and then the carry of the operands as they were goes to VF. -/
theorem addSetsCarry : Obligations.AddSetsCarry := fun x y s =>
  ⟨decodeOpcode_packXY_regAdd x y, _, exec_regAdd x y s,
    regFlagWrite_setVF_of_eq (BitVec.add_def _ _) (carryFlag_eq _ _)⟩

/-- Settles O22: the difference modulo 2^8 goes to Vx, and then not-borrow of the operands as they were goes to VF; reg-subn
is the same with the operands exchanged. -/
theorem subtractSetsNotBorrow : Obligations.SubtractSetsNotBorrow := fun x y s =>
  ⟨decodeOpcode_packXY_regSub x y, decodeOpcode_packXY_regSubn x y,
    ⟨_, exec_regSub x y s, regFlagWrite_setVF_of_eq (sub_eq_ofInt _ _) (notBorrowFlag_eq _ _)⟩,
    ⟨_, exec_regSubn x y s, regFlagWrite_setVF_of_eq (sub_eq_ofInt _ _) (notBorrowFlag_eq _ _)⟩⟩

/-- Settles O23: the shifted Vx goes to Vx, and then the bit of the old Vx that was shifted out goes to VF; no register but
Vx is read. -/
theorem shiftsSetShiftedOutBit : Obligations.ShiftsSetShiftedOutBit := fun x y s =>
  ⟨decodeOpcode_packXY_regShr x y, decodeOpcode_packXY_regShl x y,
    ⟨_, exec_regShr x y s, regFlagWrite_setVF_of_eq (ushiftRight_one_eq _) (lsbFlag_eq _)⟩,
    ⟨_, exec_regShl x y s, regFlagWrite_setVF_of_eq (shiftLeft_one_eq _) (msbFlag_eq _)⟩⟩

end Sys2Proof.Machine
end

section
/-! The opcodes that set I (spec/30_encoding.md R62, R64): category A selects alone, and category F selects on its low
byte. -/

namespace Sys2Proof

@[simp] theorem decodeOpcode_packA_loadIndex (nnn : Addr) : decodeOpcode (packA 0xA#4 nnn) = .loadIndex nnn := by
  simp [decodeOpcode]

/-- Category F is decoded by its own table, on the low byte. -/
theorem decodeOpcode_packXK_catF (x : RegIx) (nn : Byte) :
    decodeOpcode (packXK 0xF#4 x nn) = decodeMisc (packXK 0xF#4 x nn) := by
  simp [decodeOpcode]

@[simp] theorem decodeOpcode_packXK_fontChar (x : RegIx) : decodeOpcode (packXK 0xF#4 x 0x29#8) = .fontChar x := by
  simp [decodeOpcode_packXK_catF, decodeMisc]

end Sys2Proof
end

section
/-! The instructions that set I from an address (spec/43_memory_index.md R103, R105): the meaning is one write of I, and that
write leaves every other part of the state. -/

namespace Sys2Proof.Machine

@[simp] theorem exec_loadIndex (nnn : Addr) (s : State) :
    exec (.loadIndex nnn) s = .next (setI (nnn.setWidth 16) s) := rfl

@[simp] theorem exec_fontChar (x : RegIx) (s : State) :
    exec (.fontChar x) s = .next (setI (BitVec.ofNat 16 (glyphAddr s x)) s) := rfl

/-- A write of I changes I alone. -/
theorem sameBut_setI (w : Word) (s : State) : SameBut [.index] s (setI w s) := by
  intro p hp
  cases p
  case index => exact absurd List.mem_cons_self hp
  all_goals simp [Unchanged]

/-- Settles O25: load-index is one write of I, whose value is the address itself. -/
theorem loadIndexSetsI : Obligations.LoadIndexSetsI := fun nnn s =>
  ⟨decodeOpcode_packA_loadIndex nnn, _, exec_loadIndex nnn s, toNat_addr_setWidth nnn, sameBut_setI _ s⟩

/-- A glyph address lies below 0x200, so I holds it with no wrap. -/
theorem toNat_ofNat_glyphAddr (s : State) (x : RegIx) : (BitVec.ofNat 16 (glyphAddr s x)).toNat = glyphAddr s x := by
  obtain ⟨-, hlow⟩ := glyphAddr_eq s x
  rw [BitVec.toNat_ofNat, Nat.mod_eq_of_lt (hlow.trans (by decide))]

/-- Settles O27: font-char is one write of I, whose value is the glyph address, and the font ends below 0x200. -/
theorem fontCharPointsAtGlyph : Obligations.FontCharPointsAtGlyph := fun x s => by
  obtain ⟨hglyph, hlow⟩ := glyphAddr_eq s x
  have hi := toNat_ofNat_glyphAddr s x
  exact ⟨decodeOpcode_packXK_fontChar x, _, exec_fontChar x s, hi.trans hglyph, hi.trans_lt hlow, sameBut_setI _ s⟩

end Sys2Proof.Machine
end

section
/-! Clear-screen (spec/44_display.md R109): the opcode is one fixed value, the meaning is one write of
DISPLAY, and that write leaves every other part of the state. -/

namespace Sys2Proof

@[simp] theorem decodeOpcode_clearScreen : decodeOpcode 0x00E0#16 = .clearScreen := by decide

end Sys2Proof

namespace Sys2Proof.Machine

@[simp] theorem exec_clearScreen (s : State) : exec .clearScreen s = .next (setDisplay blankDisplay s) := rfl

/-- After a write of DISPLAY a cell reads as the written display has it. -/
@[simp] theorem cell_setDisplay (d : Display) (s : State) (k : Nat) : cell (setDisplay d s) k = cellAt d k := rfl

/-- A write of DISPLAY changes DISPLAY alone. -/
theorem sameBut_setDisplay (d : Display) (s : State) : SameBut [.display] s (setDisplay d s) := by
  intro p hp
  cases p
  case display => exact absurd List.mem_cons_self hp
  all_goals simp [Unchanged]

/-- Settles O32: clear-screen is one write of DISPLAY, whose value is the blank display. -/
theorem clearScreenZeroesDisplay : Obligations.ClearScreenZeroesDisplay := fun s =>
  ⟨decodeOpcode_clearScreen, _, exec_clearScreen s, fun k _ => (cell_setDisplay _ s k).trans (cellAt_blankDisplay k),
    sameBut_setDisplay _ s⟩

end Sys2Proof.Machine
end

section
/-! Frames (spec/10_state.md, state summary): how they compose, and the part each update of the state writes. -/

namespace Sys2Proof.Machine

/-! ## Composition -/

theorem SameBut.refl (changed : List Part) (s : State) : SameBut changed s s := by
  intro p _
  cases p <;> simp [Unchanged]

theorem Unchanged.trans {p : Part} {s t u : State} (hst : Unchanged p s t) (htu : Unchanged p t u) :
    Unchanged p s u := by
  cases p
  case regs | display | memory => exact fun k => (htu k).trans (hst k)
  all_goals exact Eq.trans htu hst

/-- Two updates in a row change at most what one of them changes. -/
theorem SameBut.trans {changed changed' : List Part} {s t u : State} (hst : SameBut changed s t)
    (htu : SameBut changed' t u) : SameBut (changed ++ changed') s u := by
  intro p hp
  rw [List.mem_append, not_or] at hp
  obtain ⟨hp, hp'⟩ := hp
  exact (hst p hp).trans (htu p hp')

theorem SameBut.mono {changed changed' : List Part} {s t : State} (h : SameBut changed s t)
    (hsub : changed ⊆ changed') : SameBut changed' s t :=
  fun p hp => h p fun hmem => hp (hsub hmem)

/-- The frame of a meaning that answers the updated state `u`. -/
theorem SameBut.of_next {changed changed' : List Part} {s t u : State} (hu : SameBut changed s u)
    (h : (.next u : Host.Outcome State Fault Refusal) = .next t) (hsub : changed ⊆ changed') :
    SameBut changed' s t :=
  Host.Outcome.next.inj h ▸ hu.mono hsub

/-! ## The part an update writes -/

theorem sameBut_setV (x : RegIx) (b : Byte) (s : State) : SameBut [.regs] s (setV x b s) := by
  obtain ⟨-, -, hframe⟩ := regWrite_setV x b s
  exact hframe

/-- The flag register is one of the registers. -/
theorem sameBut_setVF (b : Byte) (s : State) : SameBut [.regs] s (setVF b s) := sameBut_setV 0xF#4 b s

theorem sameBut_setVUpTo (x : RegIx) (f : Nat → Byte) (s : State) : SameBut [.regs] s (setVUpTo x f s) := by
  intro p hp
  cases p
  case regs => exact absurd List.mem_cons_self hp
  all_goals simp [Unchanged]

theorem sameBut_storeBytes (a : Nat) (bs : List Byte) (s : State) : SameBut [.memory] s (storeBytes a bs s) := by
  intro p hp
  cases p
  case memory => exact absurd List.mem_cons_self hp
  all_goals simp [Unchanged]

theorem sameBut_setDT (b : Byte) (s : State) : SameBut [.delay] s (setDT b s) := by
  intro p hp
  cases p
  case delay => exact absurd List.mem_cons_self hp
  all_goals simp [Unchanged]

theorem sameBut_setST (b : Byte) (s : State) : SameBut [.sound] s (setST b s) := by
  intro p hp
  cases p
  case sound => exact absurd List.mem_cons_self hp
  all_goals simp [Unchanged]

theorem sameBut_setKeys (w : Word) (s : State) : SameBut [.keys] s (setKeys w s) := by
  intro p hp
  cases p
  case keys => exact absurd List.mem_cons_self hp
  all_goals simp [Unchanged]

theorem sameBut_drawRandom (s : State) : SameBut [.rng] s (drawRandom s).2 := by
  intro p hp
  cases p
  case rng => exact absurd List.mem_cons_self hp
  all_goals simp [Unchanged]

theorem sameBut_useFree (n : Nat) (s : State) : SameBut [.free] s (useFree n s) := by
  intro p hp
  cases p
  case free => exact absurd List.mem_cons_self hp
  all_goals simp [Unchanged]

theorem sameBut_raiseError (e : RuntimeError) (s : State) : SameBut [.fault] s (raiseError e s) := by
  intro p hp
  cases p
  case fault => exact absurd List.mem_cons_self hp
  all_goals simp [Unchanged]

theorem sameBut_push {w : Word} {s t : State} (h : push w s = some t) : SameBut [.sp, .stack] s t := by
  obtain ⟨-, hnone⟩ | ⟨hsp, hsome⟩ := push_cases w s
  · simp [hnone] at h
  · obtain rfl := Option.some.inj (hsome.symm.trans h)
    intro p hp
    cases p
    case sp | stack => simp at hp
    all_goals simp [Unchanged, getV, cell, readMem]

theorem sameBut_pop {w : Word} {s t : State} (h : pop s = some (w, t)) : SameBut [.sp] s t := by
  obtain ⟨-, hnone⟩ | ⟨hsp, hsome⟩ := pop_cases s
  · simp [hnone] at h
  · obtain ⟨-, rfl⟩ := Prod.mk.inj (Option.some.inj (hsome.symm.trans h))
    intro p hp
    cases p
    case sp => simp at hp
    all_goals simp [Unchanged, getV, cell, readMem]

/-! ## Raising an error of a memory access (spec/60_exceptions.md R137) -/

theorem sameBut_raiseStore (len : Nat) (s : State) : SameBut [.memory, .free, .fault] s (raiseStore len s) :=
  ((sameBut_storeBytes _ _ s).trans (sameBut_useFree _ _)).trans (sameBut_raiseError _ _)

theorem sameBut_raiseLoad (x : RegIx) (s : State) : SameBut [.regs, .free, .fault] s (raiseLoad x s) :=
  ((sameBut_setVUpTo x _ s).trans (sameBut_useFree _ _)).trans (sameBut_raiseError _ _)

theorem sameBut_raiseDraw (cx cy n : Nat) (s : State) :
    SameBut [.display, .regs, .free, .fault] s (raiseDraw cx cy n s) :=
  (((sameBut_setDisplay _ s).trans (sameBut_setVF _ _)).trans (sameBut_useFree _ _)).trans (sameBut_raiseError _ _)

end Sys2Proof.Machine
end

section
/-! The frame of every instruction: it writes at most the parts its row of the state summary lists, and what an error may
write besides. -/

namespace Sys2Proof.Machine

/-- Every instruction keeps the parts that are not its own; FAULT and the counter of free values are an error's. -/
theorem exec_sameBut {i : Instr} {s t : State} (h : exec i s = .next t) :
    SameBut (partsWritten i ++ [.fault, .free]) s t := by
  cases i with
  | clearScreen => exact (sameBut_setDisplay _ s).of_next h (List.subset_append_left _ _)
  | ret =>
    simp only [exec, execRet] at h
    split at h
    next w u hpop => exact ((sameBut_pop hpop).trans (sameBut_setPc w u)).of_next h (by simp [partsWritten])
    next => exact (sameBut_raiseError _ s).of_next h (by simp)
  | call nnn =>
    simp only [exec, execCall] at h
    split at h
    next u hpush => exact ((sameBut_push hpush).trans (sameBut_setPc _ u)).of_next h (by simp [partsWritten])
    next => exact (sameBut_raiseError _ s).of_next h (by simp)
  | jump | jumpOffset => exact (sameBut_setPc _ s).of_next h (List.subset_append_left _ _)
  | skipEqImm | skipNeImm | skipEqReg | skipNeReg | skipKeyDown | skipKeyUp =>
    exact (sameBut_skipIf _ s).of_next h (List.subset_append_left _ _)
  | loadImm x | addImm x | regMov x | regOr x | regAnd x | regXor x | getDelay x =>
    exact (sameBut_setV x _ s).of_next h (List.subset_append_left _ _)
  | regAdd x | regSub x | regShr x | regSubn x | regShl x =>
    exact ((sameBut_setV x _ s).trans (sameBut_setVF _ _)).of_next h (by simp [partsWritten])
  | random x => exact ((sameBut_drawRandom s).trans (sameBut_setV x _ _)).of_next h (by simp [partsWritten])
  | waitKey x =>
    simp only [exec, execWaitKey] at h
    split at h
    next => exact (sameBut_setPc _ s).of_next h (by simp [partsWritten])
    next => exact (sameBut_setV x _ s).of_next h (by simp [partsWritten])
  | drawSprite =>
    simp only [exec, execDrawSprite] at h
    split at h
    next => exact ((sameBut_setDisplay _ s).trans (sameBut_setVF _ _)).of_next h (by simp [partsWritten])
    next => exact (sameBut_raiseDraw _ _ _ s).of_next h (by simp [partsWritten])
  | loadIndex | addIndex | fontChar => exact (sameBut_setI _ s).of_next h (List.subset_append_left _ _)
  | bcd | storeRegs =>
    simp only [exec, execBcd, execStoreRegs] at h
    split at h
    next => exact (sameBut_storeBytes _ _ s).of_next h (List.subset_append_left _ _)
    next => exact (sameBut_raiseStore _ s).of_next h (by simp [partsWritten])
  | loadRegs x =>
    simp only [exec, execLoadRegs] at h
    split at h
    next => exact (sameBut_setVUpTo x _ s).of_next h (List.subset_append_left _ _)
    next => exact (sameBut_raiseLoad x s).of_next h (by simp [partsWritten])
  | setDelay => exact (sameBut_setDT _ s).of_next h (List.subset_append_left _ _)
  | setSound => exact (sameBut_setST _ s).of_next h (List.subset_append_left _ _)
  | nop => exact (SameBut.refl [] s).of_next h (List.nil_subset _)

end Sys2Proof.Machine
end

section
/-! Who writes the timers (spec/45_timers_input.md R118): of the instructions set-delay and set-sound alone, and of the host
operations besides a step decrementTimers alone. -/

namespace Sys2Proof.Machine

@[simp] theorem exec_setDelay (x : RegIx) (s : State) : exec (.setDelay x) s = .next (setDT (getV s x) s) := rfl

@[simp] theorem exec_setSound (x : RegIx) (s : State) : exec (.setSound x) s = .next (setST (getV s x) s) := rfl

theorem delay_mem_partsWritten {i : Instr} (h : .delay ∈ partsWritten i) : ∃ x, i = .setDelay x := by
  cases i
  case setDelay x => exact ⟨x, rfl⟩
  all_goals simp [partsWritten] at h

theorem sound_mem_partsWritten {i : Instr} (h : .sound ∈ partsWritten i) : ∃ x, i = .setSound x := by
  cases i
  case setSound x => exact ⟨x, rfl⟩
  all_goals simp [partsWritten] at h

/-- An instruction leaves DT, or is set-delay and gives DT the register Vx. -/
theorem exec_dt_cases {i : Instr} {s t : State} (h : exec i s = .next t) :
    t.dt = s.dt ∨ ∃ x, i = .setDelay x ∧ t.dt = getV s x := by
  by_cases hdelay : .delay ∈ partsWritten i
  · obtain ⟨x, rfl⟩ := delay_mem_partsWritten hdelay
    cases h
    exact .inr ⟨x, rfl, setDT_dt _ s⟩
  · exact .inl (exec_sameBut h .delay (by simpa using hdelay))

/-- An instruction leaves ST, or is set-sound and gives ST the register Vx. -/
theorem exec_st_cases {i : Instr} {s t : State} (h : exec i s = .next t) :
    t.st = s.st ∨ ∃ x, i = .setSound x ∧ t.st = getV s x := by
  by_cases hsound : .sound ∈ partsWritten i
  · obtain ⟨x, rfl⟩ := sound_mem_partsWritten hsound
    cases h
    exact .inr ⟨x, rfl, setST_st _ s⟩
  · exact .inl (exec_sameBut h .sound (by simpa using hsound))

theorem sameBut_pressKey (k : Byte) (s : State) : SameBut [.keys] s (pressKey k s) := by
  unfold pressKey
  split
  · exact sameBut_setKeys _ s
  · exact SameBut.refl _ s

theorem sameBut_releaseKey (k : Byte) (s : State) : SameBut [.keys] s (releaseKey k s) := by
  unfold releaseKey
  split
  · exact sameBut_setKeys _ s
  · exact SameBut.refl _ s

/-- A host operation that is neither a step nor decrementTimers leaves every part but memory and KEYS. -/
theorem call_sameBut {op : HostOp} {S S' : Session} {r : Reply} (h : Session.call op S = .next (S', r))
    (hstep : op ≠ .step) (hdec : op ≠ .decrementTimers) : SameBut [.memory, .keys] S.core S'.core := by
  obtain ⟨bytes, rfl, -, -, rfl⟩ | ⟨rfl, -⟩ | ⟨rfl, -⟩ | ⟨k, rfl, rfl⟩ | ⟨k, rfl, rfl⟩ | ⟨rfl, -⟩ := call_cases h
  · exact (sameBut_storeBytes _ bytes S.core).mono (by simp)
  · exact absurd rfl hstep
  · exact absurd rfl hdec
  · exact (sameBut_pressKey k S.core).mono (by simp)
  · exact (sameBut_releaseKey k S.core).mono (by simp)
  · exact SameBut.refl _ _

/-- Settles O48: a step is a fetch error, which keeps both timers, or the instruction at PC, which keeps a timer or sets it
from Vx; the other host operations write memory and KEYS at most. -/
theorem onlyTheHostCountsTimers : Obligations.OnlyTheHostCountsTimers := by
  refine ⟨fun s t h => ?_, fun op S S' r h hstep hdec => ?_⟩
  · obtain ⟨-, ⟨-, rfl⟩ | ⟨-, hexec⟩⟩ := step_cases h
    · exact ⟨.inl (raiseError_dt _ s), .inl (raiseError_st _ s)⟩
    · have hdt := exec_dt_cases hexec
      have hst := exec_st_cases hexec
      simp only [advancePc_dt, advancePc_st, getV_advancePc] at hdt hst
      exact ⟨hdt, hst⟩
  · have hframe := call_sameBut h hstep hdec
    exact ⟨hframe .delay (by decide), hframe .sound (by decide)⟩

end Sys2Proof.Machine
end

section
/-! The opcodes of timers and keys (spec/30_encoding.md R62, R64): categories E and F select on the low byte. -/

namespace Sys2Proof

/-- Category E is decoded by its own table, on the low byte. -/
theorem decodeOpcode_packXK_catE (x : RegIx) (nn : Byte) :
    decodeOpcode (packXK 0xE#4 x nn) = decodeKeyOp (packXK 0xE#4 x nn) := by
  simp [decodeOpcode]

section

variable (x : RegIx)

@[simp] theorem decodeOpcode_packXK_skipKeyDown : decodeOpcode (packXK 0xE#4 x 0x9E#8) = .skipKeyDown x := by
  simp [decodeOpcode_packXK_catE, decodeKeyOp]

@[simp] theorem decodeOpcode_packXK_getDelay : decodeOpcode (packXK 0xF#4 x 0x07#8) = .getDelay x := by
  simp [decodeOpcode_packXK_catF, decodeMisc]

@[simp] theorem decodeOpcode_packXK_waitKey : decodeOpcode (packXK 0xF#4 x 0x0A#8) = .waitKey x := by
  simp [decodeOpcode_packXK_catF, decodeMisc]

@[simp] theorem decodeOpcode_packXK_setDelay : decodeOpcode (packXK 0xF#4 x 0x15#8) = .setDelay x := by
  simp [decodeOpcode_packXK_catF, decodeMisc]

@[simp] theorem decodeOpcode_packXK_setSound : decodeOpcode (packXK 0xF#4 x 0x18#8) = .setSound x := by
  simp [decodeOpcode_packXK_catF, decodeMisc]

end

end Sys2Proof
end

section
/-! The instructions of timers and keys (spec/45_timers_input.md R112, R114-R117): each meaning is one write of PC, of Vx or
of a timer. -/

namespace Sys2Proof.Machine

section

variable (x : RegIx) (s : State)

@[simp] theorem exec_skipKeyDown : exec (.skipKeyDown x) s = .next (skipIf (keyHeld s (keyIndex s x)) s) := rfl

@[simp] theorem exec_getDelay : exec (.getDelay x) s = .next (setV x s.dt s) := rfl

theorem exec_waitKey_of_no_key (hkeys : s.keys = 0) : exec (.waitKey x) s = .next (rewindPc s) := if_pos hkeys

theorem exec_waitKey_of_key (hkeys : s.keys ≠ 0) : exec (.waitKey x) s = .next (setV x (lowestKey s.keys) s) :=
  if_neg hkeys

end

/-- A skip on a held key: the key index is the low nibble of Vx as a number. -/
theorem skipIf_keyHeld_pc (x : RegIx) (s : State) :
    (skipIf (keyHeld s (keyIndex s x)) s).pc =
      if s.keys.getLsbD ((getV s x).toNat % 16) = true then s.pc + 2 else s.pc := by
  rw [skipIf_pc, keyIndex_eq, keyHeld]

/-- Settles O37: skip-key-down is `skipIf` on the key of the low nibble, which changes PC alone. -/
theorem skipKeyDownTestsKey : Obligations.SkipKeyDownTestsKey := fun x s =>
  ⟨decodeOpcode_packXK_skipKeyDown x, _, exec_skipKeyDown x s, skipIf_keyHeld_pc x s, sameBut_skipIf _ s⟩

/-- Settles O39: get-delay is one register write, whose value is DT. -/
theorem getDelayReadsTimer : Obligations.GetDelayReadsTimer := fun x s =>
  ⟨decodeOpcode_packXK_getDelay x, _, exec_getDelay x s, regWrite_setV x s.dt s⟩

/-- Settles O40: with no key held wait-key is one write of PC; else it is one register write, whose value is a held key with
no held key below it. -/
theorem waitKeyTakesLowestKey : Obligations.WaitKeyTakesLowestKey := fun x s => by
  refine ⟨decodeOpcode_packXK_waitKey x, fun hkeys => ?_, fun hkeys => ?_⟩
  · exact ⟨_, exec_waitKey_of_no_key x s hkeys, rewindPc_pc s, sameBut_setPc _ s⟩
  · obtain ⟨k, hk, hheld, hlower, hlowest⟩ := lowestKey_spec hkeys
    exact ⟨_, k, exec_waitKey_of_key x s hkeys, hk, hheld, hlower, hlowest ▸ regWrite_setV x _ s⟩

/-- The sound is active while the number in ST is positive (spec/10_state.md R27). -/
theorem soundActive_eq (s : State) : soundActive s = decide (0 < s.st.toNat) := by
  rw [Bool.eq_iff_iff, soundActive, bne_iff_ne, decide_eq_true_iff, Nat.pos_iff_ne_zero]
  exact (BitVec.toNat_ne_iff_ne (y := 0#8)).symm

/-- Settles O41: each of the two is one write of its timer, whose value is Vx, and the sound is read off ST. -/
theorem setTimersWriteTimers : Obligations.SetTimersWriteTimers := fun x s =>
  ⟨decodeOpcode_packXK_setDelay x, decodeOpcode_packXK_setSound x,
    ⟨_, exec_setDelay x s, setDT_dt _ s, sameBut_setDT _ s⟩,
    ⟨_, exec_setSound x s, setST_st _ s, soundActive_eq _, sameBut_setST _ s⟩⟩

end Sys2Proof.Machine
end

section
/-! The keypad operations of the host (spec/45_timers_input.md R121, R122): below 0x10 the mask bit of the key is set or
cleared, and from there on nothing happens. -/

namespace Sys2Proof.Machine

/-- The mask of a key holds that key's bit and no other. -/
theorem getLsbD_keyBit {k : Byte} (hk : k.toNat ≤ 0xF) (j : Nat) : (keyBit k).getLsbD j = decide (k.toNat = j) := by
  have hlt : k.toNat < 16 := by omega
  have h := BitVec.getLsbD_twoPow (w := 16) k.toNat j
  rwa [decide_eq_true hlt, Bool.true_and] at h

section

variable {k : Byte} (s : State)

theorem pressKey_of_gt (hk : 0xF < k.toNat) : pressKey k s = s := if_neg (Nat.not_le_of_gt hk)

theorem releaseKey_of_gt (hk : 0xF < k.toNat) : releaseKey k s = s := if_neg (Nat.not_le_of_gt hk)

theorem pressKey_of_le (hk : k.toNat ≤ 0xF) : pressKey k s = setKeys (s.keys ||| keyBit k) s := if_pos hk

theorem releaseKey_of_le (hk : k.toNat ≤ 0xF) : releaseKey k s = setKeys (s.keys &&& ~~~keyBit k) s := if_pos hk

theorem getLsbD_keys_pressKey (hk : k.toNat ≤ 0xF) (j : Nat) :
    (pressKey k s).keys.getLsbD j = if j = k.toNat then true else s.keys.getLsbD j := by
  rw [pressKey_of_le s hk, setKeys_keys, BitVec.getLsbD_or, getLsbD_keyBit hk]
  by_cases hj : j = k.toNat
  · simp [hj]
  · simp [hj, Ne.symm hj]

theorem getLsbD_keys_releaseKey (hk : k.toNat ≤ 0xF) {j : Nat} (hlt : j < 16) :
    (releaseKey k s).keys.getLsbD j = if j = k.toNat then false else s.keys.getLsbD j := by
  rw [releaseKey_of_le s hk, setKeys_keys, BitVec.getLsbD_and, BitVec.getLsbD_not, getLsbD_keyBit hk]
  by_cases hj : j = k.toNat
  · simp [hj]
  · simp [hj, Ne.symm hj, hlt]

end

/-- Settles O56: each operation writes KEYS alone, bit by bit when the byte names a key, and is the identity otherwise. -/
theorem keyOperationsSetAndClear : Obligations.KeyOperationsSetAndClear := fun k S =>
  ⟨⟨_, rfl, sameBut_pressKey k S.core, pressKey_of_gt S.core, fun hk j _ => getLsbD_keys_pressKey S.core hk j⟩,
    ⟨_, rfl, sameBut_releaseKey k S.core, releaseKey_of_gt S.core, fun hk _ => getLsbD_keys_releaseKey S.core hk⟩⟩

end Sys2Proof.Machine
end

section
/-! The getters of the host (spec/46_host_interface.md R126, R127): each answers from the state and hands the session back,
and the cell at column X and row Y of the view has the index Y * 64 + X. -/

namespace Sys2Proof.Machine

@[simp] theorem call_getDisplay (S : Session) : Session.call .getDisplay S = .next (S, .cells (getDisplay S.core)) := rfl

@[simp] theorem call_getSoundTimer (S : Session) : Session.call .getSoundTimer S = .next (S, .sound S.core.st) := rfl

/-- The view lists the cells in the order of their indices. -/
theorem getElem?_toList_getDisplay (s : State) {k : Nat} (hk : k < 2048) :
    (getDisplay s).toList[k]? = some (cell s k) := by
  rw [Vector.getElem?_toList, Vector.getElem?_eq_getElem hk, getDisplay, Vector.getElem_ofFn]

/-- Row-major order (spec/10_state.md R31): row `y` begins at index `y * 64`. -/
theorem cellAt_row_column (d : Display) {x y : Nat} (hx : x < 64) (hy : y < 32) :
    cellAt d (y * 64 + x) = d[y].getLsbD x := by
  have hrow : (y * 64 + x) / 64 = y := by omega
  have hcolumn : (y * 64 + x) % 64 = x := by omega
  simp only [cellAt, hrow, hcolumn, dif_pos hy]

/-- Settles O58: the view at an index is the cell of that index, which row-major order places at column X and row Y. -/
theorem gettersReadState : Obligations.GettersReadState := fun S =>
  ⟨⟨_, call_getDisplay S, fun X Y hX hY => by
    rw [getElem?_toList_getDisplay S.core (k := Y * 64 + X) (by omega), cell, cellAt_row_column S.core.display hX hY]⟩,
   call_getSoundTimer S⟩

end Sys2Proof.Machine
end

section
/-! The state after construction (spec/70_reset_and_hazards.md R152): one lemma per reader of the reset state, and the reset
contents of memory inside the font and outside it. -/

namespace Sys2Proof.Machine

/-- Inside the font the reset contents are the glyph bytes, since the font ends below 0x200 (spec/20_memory.md R43). -/
theorem resetByte_font (d : Fin 80) : resetByte (Config.fontBase.val + d.val) = Config.fontByte d := by
  have hbase : Config.fontBase.val < 433 := Config.fontBase.isLt
  have hlow : Config.fontBase.val + d.val < 0x200 := by omega
  simp [resetByte, hlow]

/-- Outside the font the reset contents are 0, below 0x200 as from there on. -/
theorem resetByte_of_outside_font {a : Nat} (h : a < Config.fontBase.val ∨ Config.fontBase.val + 80 ≤ a) :
    resetByte a = 0 := by
  unfold resetByte
  split
  · exact dif_neg (by omega)
  · rfl

@[simp] theorem getV_reset (x : RegIx) : getV State.reset x = 0 := Vector.getElem_replicate _

@[simp] theorem getElem_stack_reset (j : Fin 16) : State.reset.stack[j] = 0 := Vector.getElem_replicate j.isLt

@[simp] theorem cell_reset (k : Nat) : cell State.reset k = false := cellAt_blankDisplay k

/-- Settles O10: the registers, the stack and the cells read 0 each, memory reads the reset contents, which are the font and 0
outside it, and every other part is 0 by its reset value. -/
theorem constructionState : Obligations.ConstructionState :=
  ⟨getV_reset, rfl, rfl, rfl, getElem_stack_reset, rfl, rfl, rfl, fun k _ => cell_reset k,
    fun d => (readMem_reset _).trans (resetByte_font d),
    fun a ha => (readMem_reset a).trans (resetByte_of_outside_font ha), rfl⟩

end Sys2Proof.Machine
end

section
/-! The opcodes that the sections above leave (spec/30_encoding.md R62, R64), and the opcodes of the no-op (R65). -/

namespace Sys2Proof

@[simp] theorem decodeOpcode_ret : decodeOpcode 0x00EE#16 = .ret := by decide

section

variable (x y : RegIx) (n : BitVec 4) (nn : Byte) (nnn : Addr)

@[simp] theorem decodeOpcode_packA_call : decodeOpcode (packA 0x2#4 nnn) = .call nnn := by
  simp [decodeOpcode]

@[simp] theorem decodeOpcode_packXY_skipEqReg : decodeOpcode (packXY 0x5#4 x y n) = .skipEqReg x y n := by
  simp [decodeOpcode]

@[simp] theorem decodeOpcode_packXY_skipNeReg : decodeOpcode (packXY 0x9#4 x y n) = .skipNeReg x y n := by
  simp [decodeOpcode]

@[simp] theorem decodeOpcode_packA_jumpOffset : decodeOpcode (packA 0xB#4 nnn) = .jumpOffset nnn := by
  simp [decodeOpcode]

@[simp] theorem decodeOpcode_packXK_random : decodeOpcode (packXK 0xC#4 x nn) = .random x nn := by
  simp [decodeOpcode]

@[simp] theorem decodeOpcode_packXY_drawSprite : decodeOpcode (packXY 0xD#4 x y n) = .drawSprite x y n := by
  simp [decodeOpcode]

@[simp] theorem decodeOpcode_packXK_skipKeyUp : decodeOpcode (packXK 0xE#4 x 0xA1#8) = .skipKeyUp x := by
  simp [decodeOpcode_packXK_catE, decodeKeyOp]

@[simp] theorem decodeOpcode_packXK_addIndex : decodeOpcode (packXK 0xF#4 x 0x1E#8) = .addIndex x := by
  simp [decodeOpcode_packXK_catF, decodeMisc]

@[simp] theorem decodeOpcode_packXK_bcd : decodeOpcode (packXK 0xF#4 x 0x33#8) = .bcd x := by
  simp [decodeOpcode_packXK_catF, decodeMisc]

@[simp] theorem decodeOpcode_packXK_storeRegs : decodeOpcode (packXK 0xF#4 x 0x55#8) = .storeRegs x := by
  simp [decodeOpcode_packXK_catF, decodeMisc]

@[simp] theorem decodeOpcode_packXK_loadRegs : decodeOpcode (packXK 0xF#4 x 0x65#8) = .loadRegs x := by
  simp [decodeOpcode_packXK_catF, decodeMisc]

end

/-! ## The no-op, category by category -/

section

variable {op op' : Opcode}

/-- In category 0 the 12 low bits are the whole opcode. -/
theorem decodeZero_eq_nop_iff (hc : op.toNat / 0x1000 = 0) :
    decodeZero op = .nop op' ↔ op = op' ∧ op ≠ 0x00E0#16 ∧ op ≠ 0x00EE#16 := by
  have hlow (a : Nat) (ha : a < 0x1000) : opNNN op = BitVec.ofNat 12 a ↔ op = BitVec.ofNat 16 a := by
    rw [← BitVec.toNat_inj, ← BitVec.toNat_inj, toNat_opNNN, BitVec.toNat_ofNat, BitVec.toNat_ofNat]
    omega
  simp only [decodeZero, hlow 0x0E0 (by decide), hlow 0x0EE (by decide)]
  split
  · simp [*]
  · split <;> simp [*]

theorem decodeRegOp_eq_nop_iff :
    decodeRegOp op = .nop op' ↔ op = op' ∧ op.toNat % 0x10 ∈ undefinedRegOps := by
  unfold decodeRegOp
  rw [toNat_opN]
  split
  case h_10 =>
    have hmem : op.toNat % 0x10 ∈ undefinedRegOps := by
      simp only [undefinedRegOps, List.mem_cons, List.not_mem_nil, imp_false] at *
      omega
    simp [hmem]
  all_goals simp [undefinedRegOps, *]

theorem decodeKeyOp_eq_nop_iff :
    decodeKeyOp op = .nop op' ↔ op = op' ∧ op.toNat % 0x100 ∉ keySelectors := by
  unfold decodeKeyOp
  rw [toNat_opNN]
  split
  case h_3 => simp_all [keySelectors]
  all_goals simp [keySelectors, *]

theorem decodeMisc_eq_nop_iff :
    decodeMisc op = .nop op' ↔ op = op' ∧ op.toNat % 0x100 ∉ miscSelectors := by
  unfold decodeMisc
  rw [toNat_opNN]
  split
  case h_10 => simp_all [miscSelectors]
  all_goals simp [miscSelectors, *]

/-- Exactly the undefined opcodes decode to a no-op, and each to its own (R65). -/
theorem decodeOpcode_eq_nop_iff : decodeOpcode op = .nop op' ↔ op = op' ∧ undefinedOpcode op = true := by
  have hlt : op.toNat / 0x1000 < 0x10 := by have := op.isLt; omega
  unfold decodeOpcode
  rw [toNat_opC]
  split
  case h_1 hc => simp [decodeZero_eq_nop_iff hc, undefinedOpcode, hc]
  case h_9 hc => simp [decodeRegOp_eq_nop_iff, undefinedOpcode, hc]
  case h_15 hc => simp [decodeKeyOp_eq_nop_iff, undefinedOpcode, hc]
  case h_16 =>
    have hc : op.toNat / 0x1000 = 0xF := by simp only [imp_false] at *; omega
    simp [decodeMisc_eq_nop_iff, undefinedOpcode, hc]
  all_goals simp [undefinedOpcode, *]

end

/-- Decoding the opcode of a well-formed instruction gives it back: format by format, and the no-op by its own opcode. -/
theorem decodeOpcode_encode {i : Instr} (hwf : i.wf = true) : decodeOpcode (encode i) = i := by
  cases i
  case nop op => exact decodeOpcode_eq_nop_iff.mpr ⟨rfl, hwf⟩
  all_goals simp [encode]

end Sys2Proof

namespace Sys2Proof.Machine

/-- Settles O2: as an opcode by format, and as bytes because the two halves of an opcode decode as it does. -/
theorem decodeUndoesEncode : Obligations.DecodeUndoesEncode := fun i rest hwf => by
  have hop : decodeOpcode (encode i) = i := decodeOpcode_encode hwf
  exact ⟨hop, (decode_hi_lo (encode i) rest).trans (by rw [hop])⟩

end Sys2Proof.Machine
end

section
/-! No bit of an opcode is lost by decoding it (spec/30_encoding.md R59, R64): the fields a category selects on are the ones
that its encodings fix. -/

namespace Sys2Proof

section

variable {op : Opcode} {c : Nat}

theorem packA_of_category (hc : (opC op).toNat = c) : packA (BitVec.ofNat 4 c) (opNNN op) = op := by
  rw [← hc, BitVec.ofNat_toNat, BitVec.setWidth_eq, packA_fields]

theorem packXK_of_category (hc : (opC op).toNat = c) : packXK (BitVec.ofNat 4 c) (opX op) (opNN op) = op := by
  rw [← hc, BitVec.ofNat_toNat, BitVec.setWidth_eq, packXK_fields]

theorem packXY_of_category (hc : (opC op).toNat = c) : packXY (BitVec.ofNat 4 c) (opX op) (opY op) (opN op) = op := by
  rw [← hc, BitVec.ofNat_toNat, BitVec.setWidth_eq, packXY_fields]

/-- A category that selects on the low byte, with that byte. -/
theorem packXK_of_selector (hc : (opC op).toNat = c) {nn : Nat} (hn : (opNN op).toNat = nn) :
    packXK (BitVec.ofNat 4 c) (opX op) (BitVec.ofNat 8 nn) = op := by
  rw [← hn, BitVec.ofNat_toNat, BitVec.setWidth_eq, packXK_of_category hc]

/-- A category that selects on the low nibble, with that nibble. -/
theorem packXY_of_selector (hc : (opC op).toNat = c) {n : Nat} (hn : (opN op).toNat = n) :
    packXY (BitVec.ofNat 4 c) (opX op) (opY op) (BitVec.ofNat 4 n) = op := by
  rw [← hn, BitVec.ofNat_toNat, BitVec.setWidth_eq, packXY_of_category hc]

theorem encode_decodeZero (hc : (opC op).toNat = 0x0) : encode (decodeZero op) = op := by
  have hop : packA 0x0#4 (opNNN op) = op := packA_of_category hc
  unfold decodeZero
  split
  case isTrue hlow => rw [← hop, hlow]; rfl
  case isFalse =>
    split
    case isTrue hlow => rw [← hop, hlow]; rfl
    case isFalse => rfl

theorem encode_decodeRegOp (hc : (opC op).toNat = 0x8) : encode (decodeRegOp op) = op := by
  unfold decodeRegOp
  split
  case h_10 => rfl
  all_goals exact packXY_of_selector hc ‹_›

theorem encode_decodeKeyOp (hc : (opC op).toNat = 0xE) : encode (decodeKeyOp op) = op := by
  unfold decodeKeyOp
  split
  case h_3 => rfl
  all_goals exact packXK_of_selector hc ‹_›

theorem encode_decodeMisc (hc : (opC op).toNat = 0xF) : encode (decodeMisc op) = op := by
  unfold decodeMisc
  split
  case h_10 => rfl
  all_goals exact packXK_of_selector hc ‹_›

end

theorem encode_decodeOpcode (op : Opcode) : encode (decodeOpcode op) = op := by
  have hlt : (opC op).toNat < 0x10 := (opC op).isLt
  unfold decodeOpcode
  split
  case h_1 hc => exact encode_decodeZero hc
  case h_9 hc => exact encode_decodeRegOp hc
  case h_15 hc => exact encode_decodeKeyOp hc
  case h_16 => exact encode_decodeMisc (by simp only [imp_false] at *; omega)
  case h_2 hc | h_3 hc | h_11 hc | h_12 hc => exact packA_of_category hc
  case h_4 hc | h_5 hc | h_7 hc | h_8 hc | h_13 hc => exact packXK_of_category hc
  case h_6 hc | h_10 hc | h_14 hc => exact packXY_of_category hc

theorem decodeOpcode_wf (op : Opcode) : (decodeOpcode op).wf = true := by
  cases hi : decodeOpcode op
  case nop op' =>
    obtain ⟨rfl, hundef⟩ := decodeOpcode_eq_nop_iff.mp hi
    exact hundef
  all_goals rfl

end Sys2Proof

namespace Sys2Proof.Machine

/-- Settles O3: the encoder puts the decoded fields together again, and a decoded no-op is one of an undefined opcode. -/
theorem encodeUndoesDecode : Obligations.EncodeUndoesDecode := fun op =>
  ⟨encode_decodeOpcode op, decodeOpcode_wf op⟩

/-- Settles O5: each opcode is decoded by the tables. -/
theorem handEncodedWordsDecode : Obligations.HandEncodedWordsDecode := by
  unfold Obligations.HandEncodedWordsDecode
  decide

end Sys2Proof.Machine
end

section
/-! How many opcodes are undefined (spec/30_encoding.md R65): a category has 0x1000 opcodes, and where it selects on a low
nibble or byte, the undefined ones come back with that period. -/

namespace Sys2Proof

/-- A predicate of period `b` holds `a` times as often in `a` periods as in one. -/
theorem countP_range_mul_mod (p : Nat → Bool) (a b : Nat) :
    (List.range (a * b)).countP (fun w => p (w % b)) = a * (List.range b).countP p := by
  induction a with
  | zero => simp
  | succ a ih =>
    have hlast : (List.range b).countP ((fun w => p (w % b)) ∘ (a * b + ·)) = (List.range b).countP p :=
      List.countP_congr fun w hw => by
        simp only [Function.comp_apply, Nat.mul_add_mod_self_right, Nat.mod_eq_of_lt (List.mem_range.mp hw)]
    rw [Nat.succ_mul, List.range_add, List.countP_append, List.countP_map, ih, hlast, Nat.succ_mul]

/-- A list of distinct numbers below `n` has as many as the range below `n` has of its members. -/
theorem countP_range_mem {l : List Nat} {n : Nat} (hl : l.Nodup) (hlt : ∀ k ∈ l, k < n) (p : Nat → Bool)
    (hp : ∀ k, p k = true ↔ k ∈ l) : (List.range n).countP p = l.length := by
  rw [List.countP_eq_length_filter]
  refine ((List.perm_ext_iff_of_nodup (List.nodup_range.filter p) hl).mpr fun k => ?_).length_eq
  rw [List.mem_filter, List.mem_range, hp]
  exact and_iff_right_of_imp (hlt k)

/-- The others of the range are the rest of it. -/
theorem countP_range_not_contains {l : List Nat} {n : Nat} (hl : l.Nodup) (hlt : ∀ k ∈ l, k < n) :
    (List.range n).countP (fun k => !l.contains k) = n - l.length := by
  have hsplit := List.length_eq_countP_add_countP l.contains (l := List.range n)
  rw [List.length_range, countP_range_mem hl hlt l.contains fun k => List.contains_iff_mem] at hsplit
  simp only [Bool.not_eq_true, Bool.decide_eq_false] at hsplit
  omega

/-! ## The list of R65, a category at a time -/

section

variable {op : Opcode}

theorem undefinedOpcode_category0 (hc : op.toNat / 0x1000 = 0x0) :
    undefinedOpcode op = (op != 0x00E0#16 && op != 0x00EE#16) := by
  simp only [undefinedOpcode, hc]

theorem undefinedOpcode_category8 (hc : op.toNat / 0x1000 = 0x8) :
    undefinedOpcode op = undefinedRegOps.contains (op.toNat % 0x10) := by
  simp only [undefinedOpcode, hc]

theorem undefinedOpcode_categoryE (hc : op.toNat / 0x1000 = 0xE) :
    undefinedOpcode op = !keySelectors.contains (op.toNat % 0x100) := by
  simp only [undefinedOpcode, hc]

theorem undefinedOpcode_categoryF (hc : op.toNat / 0x1000 = 0xF) :
    undefinedOpcode op = !miscSelectors.contains (op.toNat % 0x100) := by
  simp only [undefinedOpcode, hc]

theorem undefinedOpcode_other_category (hc : op.toNat / 0x1000 ∉ [0, 8, 0xE, 0xF]) : undefinedOpcode op = false := by
  simp only [List.mem_cons, List.not_mem_nil, or_false, not_or] at hc
  obtain ⟨h0, h8, hE, hF⟩ := hc
  unfold undefinedOpcode
  split
  case h_5 => rfl
  all_goals contradiction

end

/-! ## Counts -/

/-- The no-ops among 0x1000 opcodes are counted by a predicate on their numbers. -/
theorem countP_nop (f : Nat → Opcode) (p : Nat → Bool) (hp : ∀ w < 0x1000, undefinedOpcode (f w) = p w) :
    (List.range 0x1000).countP (fun w => decodeOpcode (f w) == .nop (f w)) = (List.range 0x1000).countP p :=
  List.countP_congr fun w hw => by
    rw [beq_iff_eq, decodeOpcode_eq_nop_iff, hp w (List.mem_range.mp hw)]
    simp

/-- Where the opcodes from `base` on are undefined by their remainder modulo `b`, a period is counted for all. -/
theorem countP_nop_of_period {base : Nat} (hbase : base % 0x1000 = 0) (hlt : base < 0x10000) {a b : Nat}
    (hab : a * b = 0x1000) (hb : b ∣ base) (q : Nat → Bool)
    (hq : ∀ op : Opcode, op.toNat / 0x1000 = base / 0x1000 → undefinedOpcode op = q (op.toNat % b)) :
    (List.range 0x1000).countP (fun w => decodeOpcode (BitVec.ofNat 16 (base + w)) == .nop (BitVec.ofNat 16 (base + w)))
      = a * (List.range b).countP q := by
  rw [countP_nop (fun w => BitVec.ofNat 16 (base + w)) (fun w => q (w % b)) fun w hw => ?_]
  · rw [← hab, countP_range_mul_mod]
  · have hnat : (BitVec.ofNat 16 (base + w)).toNat = base + w := Nat.mod_eq_of_lt (by omega)
    have hlow : (base + w) % b = w % b := by rw [Nat.add_mod, Nat.mod_eq_zero_of_dvd hb, Nat.zero_add, Nat.mod_mod]
    rw [hq _ (by omega), hnat, hlow]

theorem countP_nop_category0 :
    (List.range 0x1000).countP (fun w => decodeOpcode (BitVec.ofNat 16 w) == .nop (BitVec.ofNat 16 w)) = 4094 := by
  rw [countP_nop (BitVec.ofNat 16) (fun w => !([0xE0, 0xEE] : List Nat).contains w) fun w hw => ?_]
  · exact countP_range_not_contains (by decide) (by decide)
  · have hnat : (BitVec.ofNat 16 w).toNat = w := Nat.mod_eq_of_lt (by omega)
    rw [undefinedOpcode_category0 (by omega), Bool.eq_iff_iff]
    simp [← BitVec.toNat_inj, hnat]

theorem countP_nop_category8 :
    (List.range 0x1000).countP
      (fun w => decodeOpcode (BitVec.ofNat 16 (0x8000 + w)) == .nop (BitVec.ofNat 16 (0x8000 + w))) = 1792 := by
  rw [countP_nop_of_period (a := 0x100) (b := 0x10) (by decide) (by decide) (by decide) (by decide)
    undefinedRegOps.contains fun _ => undefinedOpcode_category8,
    countP_range_mem (l := undefinedRegOps) (by decide) (by decide) _ fun _ => List.contains_iff_mem]
  rfl

theorem countP_nop_categoryE :
    (List.range 0x1000).countP
      (fun w => decodeOpcode (BitVec.ofNat 16 (0xE000 + w)) == .nop (BitVec.ofNat 16 (0xE000 + w))) = 4064 := by
  rw [countP_nop_of_period (a := 0x10) (b := 0x100) (by decide) (by decide) (by decide) (by decide)
    (fun b => !keySelectors.contains b) fun _ => undefinedOpcode_categoryE,
    countP_range_not_contains (by decide) (by decide)]
  rfl

theorem countP_nop_categoryF :
    (List.range 0x1000).countP
      (fun w => decodeOpcode (BitVec.ofNat 16 (0xF000 + w)) == .nop (BitVec.ofNat 16 (0xF000 + w))) = 3952 := by
  rw [countP_nop_of_period (a := 0x10) (b := 0x100) (by decide) (by decide) (by decide) (by decide)
    (fun b => !miscSelectors.contains b) fun _ => undefinedOpcode_categoryF,
    countP_range_not_contains (by decide) (by decide)]
  rfl

end Sys2Proof

namespace Sys2Proof.Machine

/-- Settles O4: an opcode decodes to its no-op exactly when the list has it, and the list has, in the categories that are not
0, whole periods of a low nibble or byte. -/
theorem undefinedOpcodesAreNoOps : Obligations.UndefinedOpcodesAreNoOps := by
  refine ⟨fun op => ?_, countP_nop_category0, countP_nop_category8, countP_nop_categoryE, countP_nop_categoryF, exec_nop⟩
  have hnop : decodeOpcode op = .nop op ↔ undefinedOpcode op = true := by simp [decodeOpcode_eq_nop_iff]
  refine ⟨fun hc => ?_, fun hc => ?_, fun hc => ?_, fun hc => ?_, fun hc op' hdecode => ?_⟩
  · simp [hnop, undefinedOpcode_category0 hc]
  · simp [hnop, undefinedOpcode_category8 hc, undefinedRegOps]
  · simp [hnop, undefinedOpcode_categoryE hc, keySelectors]
  · simp [hnop, undefinedOpcode_categoryF hc, miscSelectors]
  · obtain ⟨-, hundef⟩ := decodeOpcode_eq_nop_iff.mp hdecode
    simp [undefinedOpcode_other_category hc] at hundef

end Sys2Proof.Machine
end

section
/-! A whole step (spec/40_execution_cycle.md R73-R78): what it fetches and runs, and what a word placed at PC (log 17) does to
it. -/

namespace Sys2Proof.Machine

/-- Settles O7: a step by the three lemmas on it, and the two bytes at PC decode as the opcode they make up. -/
theorem stepRunsDecodedInstruction : Obligations.StepRunsDecodedInstruction := fun s => by
  refine ⟨fun e => step_of_fault, step_of_fetch_error, fun hfault hpc => ⟨pc_add_two hpc, fun i hi => ?_⟩⟩
  obtain ⟨rfl, -⟩ := Prod.mk.inj (Except.ok.inj hi)
  exact ⟨decodeOpcode_wf _, step_of_fetch hfault hpc⟩

/-! ## Placing an opcode -/

section

variable (op : Opcode) (s : State)

@[simp] theorem placeOpcode_pc : (placeOpcode op s).pc = s.pc := rfl
@[simp] theorem placeOpcode_fault : (placeOpcode op s).fault = none := rfl

theorem sameBut_placeOpcode : SameBut [.memory, .fault] s (placeOpcode op s) := by
  intro p hp
  cases p
  case memory | fault => simp at hp
  all_goals simp [Unchanged, placeOpcode, storeBytes, getV, cell]

end

/-- A placed opcode is the one at PC: its two bytes read back. -/
theorem opcodeAtPc_placeOpcode {op : Opcode} {s : State} (hpc : s.pc.toNat ≤ 0xFFE) :
    opcodeAtPc (placeOpcode op s) = op := by
  have hhi : readMem (placeOpcode op s) (s.pc.toNat + 0) = opcodeHi op :=
    readMem_storeBytes_of_inside (s := s) (bs := [opcodeHi op, opcodeLo op]) (by simp) (by omega)
  have hlo : readMem (placeOpcode op s) (s.pc.toNat + 1) = opcodeLo op :=
    readMem_storeBytes_of_inside (s := s) (bs := [opcodeHi op, opcodeLo op]) (by simp) (by omega)
  rw [opcodeAtPc, placeOpcode_pc, hlo]
  exact hhi ▸ opcodeOfBytes_hi_lo op

/-- A step runs the opcode placed where it fetches. -/
theorem step_placeOpcode {op : Opcode} {s : State} (hpc : s.pc.toNat ≤ 0xFFE) :
    step (placeOpcode op s) = exec (decodeOpcode op) (advancePc (placeOpcode op s)) := by
  rw [step_of_fetch (placeOpcode_fault op s) hpc, opcodeAtPc_placeOpcode hpc]

/-- A table word of at most 16 bits decodes as its opcode does. -/
theorem decodeTableWord_of_le {nbits : Nat} (w : Nat) (h : nbits ≤ 16) :
    decodeTableWord nbits w = some (decodeOpcode (opcodeOfTable nbits w)) := by
  rw [decodeTableWord, if_pos h, decode_hi_lo]

/-- Settles O8: the word's opcode reads back at PC, so the step runs what it decodes to. -/
theorem placedWordRunsNext : Obligations.PlacedWordRunsNext := fun s _ w hpc hbits =>
  ⟨_, decodeTableWord_of_le w hbits, step_placeOpcode hpc, sameBut_placeOpcode _ s⟩

end Sys2Proof.Machine
end

section
/-! Steps that leave the state as it is (spec/46_host_interface.md R132): the advance of PC and a jump back, or a rewind. -/

namespace Sys2Proof.Machine

@[simp] theorem setPc_advancePc (w : Word) (s : State) : setPc w (advancePc s) = setPc w s := rfl

@[simp] theorem setPc_pc_self (s : State) : setPc s.pc s = s := rfl

@[simp] theorem rewindPc_advancePc (s : State) : rewindPc (advancePc s) = s := by
  rw [rewindPc, setPc_advancePc, advancePc_pc, BitVec.add_sub_cancel, setPc_pc_self]

/-- Settles O53: a jump to its own address sets PC to where the step began, and a wait-key takes the advance back. -/
theorem quiescentStates : Obligations.QuiescentStates := fun s hfault hpc => by
  refine ⟨fun nnn hjump haddr => ?_, fun x hwait hkeys => ?_⟩
  · have htarget : nnn.setWidth 16 = s.pc := BitVec.eq_of_toNat_eq ((toNat_addr_setWidth nnn).trans haddr)
    rw [Quiescent, step_of_fetch hfault hpc, hjump, exec_jump, htarget, setPc_advancePc, setPc_pc_self]
  · rw [Quiescent, step_of_fetch hfault hpc, hwait,
      exec_waitKey_of_no_key x (advancePc s) hkeys, rewindPc_advancePc]

end Sys2Proof.Machine
end

section
/-! The CORE without a load (spec/70_reset_and_hazards.md R157): memory is 0 from 0x200 on, 0x0000 is a no-op, and PC walks to
the end of memory. -/

namespace Sys2Proof.Machine

/-- The constructed CORE with PC elsewhere. -/
def resetAt (pc : Word) : State := setPc pc State.reset

/-- From 0x200 on a constructed CORE holds the opcode 0x0000, so a step advances PC and does nothing else. -/
theorem step_resetAt {pc : Word} (hlow : 0x200 ≤ pc.toNat) (hhigh : pc.toNat ≤ 0xFFE) :
    step (resetAt pc) = .next (resetAt (pc + 2)) := by
  have hzero (a : Nat) (ha : 0x200 ≤ a) : readMem (resetAt pc) a = 0#8 := resetByte_of_ge ha
  have hop : opcodeAtPc (resetAt pc) = 0x0000#16 := by
    have hbytes : opcodeAtPc (resetAt pc) = readMem (resetAt pc) pc.toNat ++ readMem (resetAt pc) (pc.toNat + 1) := rfl
    rw [hbytes, hzero _ hlow, hzero _ (Nat.le_succ_of_le hlow)]
    decide
  have hnop : decodeOpcode 0x0000#16 = .nop 0x0000#16 := by decide
  exact step_of_nop rfl hhigh (hop ▸ hnop)

/-- A step operation that meets no error. -/
theorem call_step_of_next {S : Session} {t : State} (h : step S.core = .next t) :
    Session.call .step S = .next ({ core := t, stepped := true }, stepReply t) := by
  simp only [Session.call, h]

/-- While PC stays below 0x1000, `n` steps without a load advance it by `2 * n`. -/
theorem run_steps_resetAt (n : Nat) (pc : Word) (b : Bool) (hlow : 0x200 ≤ pc.toNat) (hhigh : pc.toNat + 2 * n ≤ 0x1000) :
    Session.run (List.replicate n .step) { core := resetAt pc, stepped := b } =
      .next ({ core := resetAt (pc + BitVec.ofNat 16 (2 * n)), stepped := b || decide (0 < n) }, List.replicate n .ok) := by
  induction n generalizing pc b with
  | zero => simp [Session.run]
  | succ n ih =>
    have hpc : (pc + 2).toNat = pc.toNat + 2 := pc_add_two (by omega)
    have hpc' : pc + 2 + BitVec.ofNat 16 (2 * n) = pc + BitVec.ofNat 16 (2 * (n + 1)) := by
      rw [BitVec.add_assoc, Nat.mul_succ, Nat.add_comm, BitVec.ofNat_add]; rfl
    have hcall := call_step_of_next (S := { core := resetAt pc, stepped := b }) (step_resetAt hlow (by omega))
    rw [List.replicate_succ, Session.run, hcall]
    simp only [ih (pc + 2) true (by omega) (by omega), hpc']
    simp [stepReply, resetAt, State.reset, List.replicate_succ]

/-- Settles O11: 1792 steps from 0x200 end at 0x1000, where no opcode can be fetched. -/
theorem emptyProgramSlides : Obligations.EmptyProgramSlides := by
  refine ⟨run_steps_resetAt 1792 0x200#16 false (by decide) (by decide), ?_⟩
  exact call_step_of_next (step_of_fetch_error rfl (by decide))

end Sys2Proof.Machine
end

section
/-! The instructions that one write of PC, Vx or I gives (spec/41_control_transfer.md R87-R89, spec/42_alu.md R102,
spec/43_memory_index.md R104, spec/45_timers_input.md R113). -/

namespace Sys2Proof.Machine

section

variable (x y : RegIx) (n : BitVec 4) (nn : Byte) (nnn : Addr) (s : State)

@[simp] theorem exec_skipEqReg : exec (.skipEqReg x y n) s = .next (skipIf (getV s x == getV s y) s) := rfl

@[simp] theorem exec_skipNeReg : exec (.skipNeReg x y n) s = .next (skipIf (getV s x != getV s y) s) := rfl

@[simp] theorem exec_jumpOffset :
    exec (.jumpOffset nnn) s = .next (setPc (nnn.setWidth 16 + (getV s 0x0#4).setWidth 16) s) := rfl

@[simp] theorem exec_random :
    exec (.random x nn) s = .next (setV x (Config.randomByte s.rng &&& nn) (drawRandom s).2) := rfl

@[simp] theorem exec_addIndex : exec (.addIndex x) s = .next (setI (s.i + (getV s x).setWidth 16) s) := rfl

@[simp] theorem exec_skipKeyUp : exec (.skipKeyUp x) s = .next (skipIf (!keyHeld s (keyIndex s x)) s) := rfl

end

/-- Settles O16: each skip is `skipIf` on its comparison of the two registers, and the low nibble is not read. -/
theorem skipOnRegisters : Obligations.SkipOnRegisters := fun x y n s =>
  ⟨decodeOpcode_packXY_skipEqReg x y n, decodeOpcode_packXY_skipNeReg x y n,
    ⟨_, exec_skipEqReg x y n s, skipIf_beq_pc _ _ s, sameBut_skipIf _ s⟩,
    ⟨_, exec_skipNeReg x y n s, skipIf_bne_pc _ _ s, sameBut_skipIf _ s⟩⟩

/-- A byte fits in a word, so widening it keeps its number. -/
theorem toNat_byte_setWidth (b : Byte) : (b.setWidth 16).toNat = b.toNat :=
  BitVec.toNat_setWidth_of_le (by decide)

/-- A 12-bit address and a byte: 16 bits hold the sum (spec/41_control_transfer.md R89). -/
theorem toNat_addr_add_byte (nnn : Addr) (b : Byte) :
    (nnn.setWidth 16 + b.setWidth 16).toNat = nnn.toNat + b.toNat ∧ nnn.toNat + b.toNat ≤ 0x10FE := by
  have hnnn := nnn.isLt
  have hb := b.isLt
  refine ⟨?_, by omega⟩
  rw [BitVec.toNat_add_of_lt, toNat_addr_setWidth, toNat_byte_setWidth]
  rw [toNat_addr_setWidth, toNat_byte_setWidth]
  omega

/-- Settles O17: jump-offset is one write of PC, whose value is the exact sum. -/
theorem jumpOffsetAddsV0 : Obligations.JumpOffsetAddsV0 := fun nnn s => by
  obtain ⟨hsum, hle⟩ := toNat_addr_add_byte nnn (getV s 0x0#4)
  exact ⟨decodeOpcode_packA_jumpOffset nnn, _, exec_jumpOffset nnn s, hsum, hsum.trans_le hle, sameBut_setPc _ s⟩

/-- Settles O24: the draw counts itself, and the masked byte is then written to Vx. -/
theorem randomIsMaskedDraw : Obligations.RandomIsMaskedDraw := fun x nn s => by
  obtain ⟨hx, hother, -⟩ := regWrite_setV x (Config.randomByte s.rng &&& nn) (drawRandom s).2
  refine ⟨decodeOpcode_packXK_random x nn, _, exec_random x nn s, hx, fun k _ hk => ?_, drawRandom_rng s, hother, ?_⟩
  · rw [hx, BitVec.getLsbD_and, hk, Bool.and_false]
  · exact ((sameBut_drawRandom s).trans (sameBut_setV x _ _)).mono (by simp)

/-- Settles O26: add-index is one write of I, whose value is the sum of words. -/
theorem addIndexWraps : Obligations.AddIndexWraps := fun x s =>
  ⟨decodeOpcode_packXK_addIndex x, _, exec_addIndex x s,
    (BitVec.toNat_add _ _).trans (by rw [toNat_byte_setWidth]), sameBut_setI _ s⟩

/-- A skip on a released key: the key index is the low nibble of Vx as a number. -/
theorem skipIf_not_keyHeld_pc (x : RegIx) (s : State) :
    (skipIf (!keyHeld s (keyIndex s x)) s).pc =
      if s.keys.getLsbD ((getV s x).toNat % 16) = false then s.pc + 2 else s.pc := by
  rw [skipIf_pc, keyIndex_eq, keyHeld]
  simp only [Bool.not_eq_true']

/-- Settles O38: skip-key-up is `skipIf` on the key of the low nibble, which changes PC alone. -/
theorem skipKeyUpTestsKey : Obligations.SkipKeyUpTestsKey := fun x s =>
  ⟨decodeOpcode_packXK_skipKeyUp x, _, exec_skipKeyUp x s, skipIf_not_keyHeld_pc x s, sameBut_skipIf _ s⟩

end Sys2Proof.Machine
end

section
/-! Return and call (spec/41_control_transfer.md R82, R84), by the depth of the stack. -/

namespace Sys2Proof.Machine

section

variable {s : State}

theorem pop_of_sp_eq_succ {j : Fin 16} (h : s.sp.val = j.val + 1) :
    pop s = some (s.stack[j], { s with sp := j.castSucc }) := by
  have hj : s.sp.val - 1 = j.val := by omega
  obtain ⟨hzero, -⟩ | ⟨_, hpop⟩ := pop_cases s
  · omega
  · rw [hpop]
    simp only [hj]
    rfl

theorem pop_of_sp_eq_zero (h : s.sp.val = 0) : pop s = none := by
  obtain ⟨-, hpop⟩ | ⟨hpos, -⟩ := pop_cases s
  · exact hpop
  · omega

theorem push_of_sp_eq {j : Fin 16} (w : Word) (h : s.sp.val = j.val) :
    push w s = some { s with stack := s.stack.set j.val w, sp := j.succ } := by
  obtain ⟨hfull, -⟩ | ⟨_, hpush⟩ := push_cases w s
  · omega
  · rw [hpush]
    simp only [h]
    rfl

theorem push_of_sp_eq_sixteen (w : Word) (h : s.sp.val = 16) : push w s = none := by
  obtain ⟨-, hpush⟩ | ⟨hlt, -⟩ := push_cases w s
  · exact hpush
  · omega

theorem exec_ret_of_sp_eq_succ {j : Fin 16} (h : s.sp.val = j.val + 1) :
    exec .ret s = .next (setPc s.stack[j] { s with sp := j.castSucc }) := by
  simp only [exec, execRet, pop_of_sp_eq_succ h]

theorem exec_ret_of_sp_eq_zero (h : s.sp.val = 0) : exec .ret s = .next (raiseError .stackUnderflow s) := by
  simp only [exec, execRet, pop_of_sp_eq_zero h]

theorem exec_call_of_sp_eq {j : Fin 16} (nnn : Addr) (h : s.sp.val = j.val) :
    exec (.call nnn) s =
      .next (setPc (nnn.setWidth 16) { s with stack := s.stack.set j.val s.pc, sp := j.succ }) := by
  simp only [exec, execCall, push_of_sp_eq s.pc h]

theorem exec_call_of_sp_eq_sixteen (nnn : Addr) (h : s.sp.val = 16) :
    exec (.call nnn) s = .next (raiseError .stackOverflow s) := by
  simp only [exec, execCall, push_of_sp_eq_sixteen s.pc h]

end

/-- Settles O12: a pop gives the entry below SP and writes SP alone, and PC is written after it. -/
theorem returnPopsPc : Obligations.ReturnPopsPc := fun s =>
  ⟨decodeOpcode_ret, fun _ hj => ⟨_, exec_ret_of_sp_eq_succ hj, rfl, rfl,
    ((sameBut_pop (pop_of_sp_eq_succ hj)).trans (sameBut_setPc _ _)).mono (by simp)⟩, exec_ret_of_sp_eq_zero⟩

/-- Settles O14: a push writes the entry at SP and SP, and PC is written after it. -/
theorem callPushesPc : Obligations.CallPushesPc := fun nnn s => by
  refine ⟨decodeOpcode_packA_call nnn, fun j hj => ⟨_, exec_call_of_sp_eq nnn hj, toNat_addr_setWidth nnn, rfl,
    Vector.getElem_set_self j.isLt, fun m hm => ?_, ?_⟩, exec_call_of_sp_eq_sixteen nnn⟩
  · exact Vector.getElem_set_ne j.isLt m.isLt fun h => hm (Fin.ext h.symm)
  · exact ((sameBut_push (push_of_sp_eq s.pc hj)).trans (sameBut_setPc _ _)).mono (by simp)

end Sys2Proof.Machine
end

section
/-! The timers between the host and the CORE (spec/45_timers_input.md R120, spec/70_reset_and_hazards.md R161). -/

namespace Sys2Proof.Machine

theorem toNat_countDown (t : Byte) : (countDown t).toNat = t.toNat - 1 := by
  unfold countDown
  split
  case isTrue h => rw [h]; rfl
  case isFalse h =>
    have hpos : t.toNat ≠ 0 := fun h0 => h (BitVec.eq_of_toNat_eq h0)
    have hlt := t.isLt
    rw [BitVec.toNat_sub]
    change (2 ^ 8 - 1 + t.toNat) % 2 ^ 8 = t.toNat - 1
    omega

@[simp] theorem decrementTimers_dt (s : State) : (decrementTimers s).dt = countDown s.dt := rfl

@[simp] theorem decrementTimers_st (s : State) : (decrementTimers s).st = countDown s.st := rfl

theorem sameBut_decrementTimers (s : State) : SameBut [.delay, .sound] s (decrementTimers s) :=
  (sameBut_setDT _ s).trans (sameBut_setST _ _)

/-- Settles O55: each timer is counted down by itself, and the two writes leave the rest. -/
theorem decrementTimersSaturates : Obligations.DecrementTimersSaturates := fun S =>
  ⟨_, rfl, toNat_countDown S.core.dt, toNat_countDown S.core.st, sameBut_decrementTimers S.core⟩

/-- Decrements add up, and 0 is their floor. -/
theorem toNat_dt_iterate_decrementTimers (d : Nat) (s : State) : (decrementTimers^[d] s).dt.toNat = s.dt.toNat - d := by
  induction d with
  | zero => rfl
  | succ d ih => rw [Function.iterate_succ_apply', decrementTimers_dt, toNat_countDown, ih, Nat.sub_sub]

/-- Settles O42: set-delay writes Vx to DT, the decrements count it down, and get-delay reads it. -/
theorem delayReadsBackCountedDown : Obligations.DelayReadsBackCountedDown := fun x y d s => by
  refine ⟨_, _, exec_setDelay x s, exec_getDelay y _, ?_⟩
  rw [getV_setV, if_pos rfl, toNat_dt_iterate_decrementTimers, setDT_dt]

end Sys2Proof.Machine
end

section
/-! The memory block instructions (spec/43_memory_index.md R106-R108): what each answers inside its range and outside it. -/

namespace Sys2Proof.Machine

section

variable (x : RegIx) {s : State}

/-- A range of `k + 1` bytes is in memory when its last byte is (spec/20_memory.md R42). -/
theorem rangeOk_succ_iff (s : State) (k : Nat) : rangeOk s (k + 1) = true ↔ s.i.toNat + k ≤ 0xFFF := by
  rw [rangeOk_iff]
  omega

theorem exec_bcd_of_le (h : s.i.toNat + 2 ≤ 0xFFF) :
    exec (.bcd x) s = .next (storeBytes s.i.toNat (bcdDigits (getV s x)) s) :=
  if_pos ((rangeOk_succ_iff s 2).mpr h)

theorem exec_bcd_of_gt (h : 0xFFF < s.i.toNat + 2) : exec (.bcd x) s = .next (raiseStore 3 s) :=
  if_neg fun hok => Nat.not_le_of_gt h ((rangeOk_succ_iff s 2).mp hok)

theorem exec_storeRegs_of_le (h : s.i.toNat + x.toNat ≤ 0xFFF) :
    exec (.storeRegs x) s = .next (storeBytes s.i.toNat (regsUpTo x s) s) :=
  if_pos ((rangeOk_succ_iff s x.toNat).mpr h)

theorem exec_storeRegs_of_gt (h : 0xFFF < s.i.toNat + x.toNat) :
    exec (.storeRegs x) s = .next (raiseStore (x.toNat + 1) s) :=
  if_neg fun hok => Nat.not_le_of_gt h ((rangeOk_succ_iff s x.toNat).mp hok)

theorem exec_loadRegs_of_le (h : s.i.toNat + x.toNat ≤ 0xFFF) :
    exec (.loadRegs x) s = .next (setVUpTo x (fun k => readMem s (s.i.toNat + k)) s) :=
  if_pos ((rangeOk_succ_iff s x.toNat).mpr h)

theorem exec_loadRegs_of_gt (h : 0xFFF < s.i.toNat + x.toNat) : exec (.loadRegs x) s = .next (raiseLoad x s) :=
  if_neg fun hok => Nat.not_le_of_gt h ((rangeOk_succ_iff s x.toNat).mp hok)

end

/-! ## The bytes moved -/

@[simp] theorem length_bcdDigits (b : Byte) : (bcdDigits b).length = 3 := rfl

/-- The digits of a byte fit in bytes. -/
theorem map_toNat_bcdDigits (b : Byte) :
    (bcdDigits b).map BitVec.toNat = [b.toNat / 100, b.toNat / 10 % 10, b.toNat % 10] := by
  have hb := b.isLt
  simp only [bcdDigits, List.map_cons, List.map_nil, BitVec.toNat_ofNat, List.cons.injEq, and_true]
  omega

theorem toNat_readMem_storeBytes_bcdDigits {s : State} {b : Byte} {k : Nat} (hk : k < 3) (h : s.i.toNat + 2 ≤ 0xFFF) :
    (readMem (storeBytes s.i.toNat (bcdDigits b) s) (s.i.toNat + k)).toNat =
      [b.toNat / 100, b.toNat / 10 % 10, b.toNat % 10][k] := by
  rw [readMem_storeBytes_of_inside hk (by omega)]
  simp only [← map_toNat_bcdDigits b, List.getElem_map]
  rfl

@[simp] theorem length_regsUpTo_eq (x : RegIx) (s : State) : (regsUpTo x s).length = x.toNat + 1 := length_regsUpTo x s

theorem getElem_regsUpTo {x r : RegIx} {s : State} (h : r.toNat < (regsUpTo x s).length) :
    (regsUpTo x s)[r.toNat] = getV s r := by
  simp [regsUpTo]

theorem readMem_storeBytes_regsUpTo {x r : RegIx} {s : State} (hr : r.toNat ≤ x.toNat)
    (h : s.i.toNat + x.toNat ≤ 0xFFF) :
    readMem (storeBytes s.i.toNat (regsUpTo x s) s) (s.i.toNat + r.toNat) = getV s r := by
  have hlen : r.toNat < (regsUpTo x s).length := by rw [length_regsUpTo_eq]; omega
  rw [readMem_storeBytes_of_inside hlen (by omega), getElem_regsUpTo]

theorem getV_setVUpTo_of_le {x r : RegIx} (f : Nat → Byte) (s : State) (hr : r.toNat ≤ x.toNat) :
    getV (setVUpTo x f s) r = f r.toNat := by
  rw [getV_setVUpTo, if_pos hr]

theorem getV_setVUpTo_of_gt {x r : RegIx} (f : Nat → Byte) (s : State) (hr : x.toNat < r.toNat) :
    getV (setVUpTo x f s) r = getV s r := by
  rw [getV_setVUpTo, if_neg (Nat.not_le_of_gt hr)]

/-- Settles O28: inside the range the three bytes stored are the digits; outside it the error writes those bytes at most. -/
theorem bcdWritesDigits : Obligations.BcdWritesDigits := fun x s => by
  refine ⟨decodeOpcode_packXK_bcd x, fun h => ?_, fun h => ?_⟩
  · have hdigit (k : Nat) (hk : k < 3) := toNat_readMem_storeBytes_bcdDigits (b := getV s x) hk h
    exact ⟨_, exec_bcd_of_le x h, hdigit 0 (by decide), hdigit 1 (by decide), hdigit 2 (by decide),
      fun a ha => readMem_storeBytes_of_outside (by rw [length_bcdDigits]; omega), sameBut_storeBytes _ _ s⟩
  · obtain ⟨hfault, houtside, -⟩ := raiseStore_spec 3 s
    exact ⟨_, exec_bcd_of_gt x h, hfault, fun a ha => houtside a (by omega), (sameBut_raiseStore 3 s).mono (by simp)⟩

/-- Settles O29: inside the range the bytes stored are the registers; outside it the error writes those bytes at most. -/
theorem storeRegsCopiesRegisters : Obligations.StoreRegsCopiesRegisters := fun x s => by
  refine ⟨decodeOpcode_packXK_storeRegs x, fun h => ?_, fun h => ?_⟩
  · exact ⟨_, exec_storeRegs_of_le x h, fun r hr => readMem_storeBytes_regsUpTo hr h,
      fun a ha => readMem_storeBytes_of_outside (by rw [length_regsUpTo_eq]; omega), sameBut_storeBytes _ _ s⟩
  · obtain ⟨hfault, houtside, -⟩ := raiseStore_spec (x.toNat + 1) s
    exact ⟨_, exec_storeRegs_of_gt x h, hfault, fun a ha => houtside a (by omega), (sameBut_raiseStore _ s).mono (by simp)⟩

/-- Settles O30: inside the range the registers take the bytes; outside it the error writes those registers at most. -/
theorem loadRegsCopiesMemory : Obligations.LoadRegsCopiesMemory := fun x s => by
  refine ⟨decodeOpcode_packXK_loadRegs x, fun h => ?_, fun h => ?_⟩
  · exact ⟨_, exec_loadRegs_of_le x h, fun r hr => getV_setVUpTo_of_le _ s hr, fun r hr => getV_setVUpTo_of_gt _ s hr,
      sameBut_setVUpTo x _ s⟩
  · obtain ⟨hfault, habove, -⟩ := raiseLoad_spec x s
    exact ⟨_, exec_loadRegs_of_gt x h, hfault, habove, (sameBut_raiseLoad x s).mono (by simp)⟩

/-- Settles O31: a fetch at I reads two bytes, which are the ones that V0 and V1 were stored to or loaded from. -/
theorem storedRegistersAreFetched : Obligations.StoredRegistersAreFetched := fun x s hx h => by
  have hi : s.i.toNat ≤ 0xFFE := by omega
  refine ⟨⟨_, exec_storeRegs_of_le x h, ?_⟩, ⟨_, exec_loadRegs_of_le x h, ?_⟩⟩
  · have h0 := readMem_storeBytes_regsUpTo (r := 0x0#4) (Nat.zero_le _) h
    have h1 := readMem_storeBytes_regsUpTo (r := 0x1#4) hx h
    rw [fetch_of_le hi, ← h0, ← h1]
    rfl
  · rw [fetch_of_le hi, getV_setVUpTo_of_le (r := 0x0#4) _ s (Nat.zero_le _),
      getV_setVUpTo_of_le (r := 0x1#4) _ s hx]
    rfl

end Sys2Proof.Machine
end

section
/-! Loading a program (spec/46_host_interface.md R124): admitted, refused by its length, and refused by the port. -/

namespace Sys2Proof.Machine

section

variable {bytes : List Byte} {S : Session}

theorem call_load_of_stepped (h : S.stepped = true) : Session.call (.load bytes) S = .refused .loadAfterStep := by
  simp [Session.call, h]

theorem call_load_of_gt (h : S.stepped = false) (hlen : 3584 < bytes.length) :
    Session.call (.load bytes) S = .next (S, .loadErr .tooLarge) := by
  simp [Session.call, h, loadBytes, hlen]

theorem call_load_of_le (h : S.stepped = false) (hlen : bytes.length ≤ 3584) :
    Session.call (.load bytes) S = .next ({ S with core := storeBytes 0x200 bytes S.core }, .ok) := by
  simp [Session.call, h, loadBytes, Nat.not_lt.mpr hlen]

end

/-- Settles O57: an admitted load is one store from 0x200 on, which ends in memory when it is short enough. -/
theorem loadCopiesProgram : Obligations.LoadCopiesProgram := fun bytes S =>
  ⟨call_load_of_stepped, call_load_of_gt, fun h hlen => ⟨_, call_load_of_le h hlen,
    fun _ hj => readMem_storeBytes_of_inside hj (by omega), fun _ ha => readMem_storeBytes_of_outside ha,
    sameBut_storeBytes _ _ _⟩⟩

end Sys2Proof.Machine
end

section
/-! Memory as data (log 18): in the canonical form the list is determined by what it reads as. -/

namespace Sys2Proof.Machine

/-- Below the addresses a canonical list may hold, it lists nothing. -/
theorem Memory.lookup_of_lt {lo a : Nat} {m : Memory} (hm : Memory.wfFrom lo m = true) (ha : a < lo) :
    Memory.lookup m a = none := by
  induction m generalizing lo with
  | nil => rfl
  | cons p rest ih =>
    obtain ⟨k, b⟩ := p
    simp only [Memory.wfFrom, Bool.and_eq_true, decide_eq_true_eq] at hm
    obtain ⟨⟨⟨hlo, -⟩, -⟩, hrest⟩ := hm
    rw [Memory.lookup, if_neg (by omega), ih hrest (by omega)]

/-- A canonical list holds no byte that its address reads as without it. -/
theorem Memory.lookup_ne_resetByte {lo a : Nat} {m : Memory} (hm : Memory.wfFrom lo m = true) :
    Memory.lookup m a ≠ some (resetByte a) := by
  induction m generalizing lo with
  | nil => exact nofun
  | cons p rest ih =>
    obtain ⟨k, b⟩ := p
    simp only [Memory.wfFrom, Bool.and_eq_true, bne_iff_ne] at hm
    obtain ⟨⟨-, hb⟩, hrest⟩ := hm
    rw [Memory.lookup]
    split
    case isTrue hk => exact fun h => hb (hk ▸ Option.some.inj h)
    case isFalse => exact ih hrest

/-- No canonical list holds an address above 0xFFF. -/
theorem Memory.lookup_of_ge {lo a : Nat} {m : Memory} (hm : Memory.wfFrom lo m = true) (ha : 4096 ≤ a) :
    Memory.lookup m a = none := by
  induction m generalizing lo with
  | nil => rfl
  | cons p rest ih =>
    obtain ⟨k, b⟩ := p
    simp only [Memory.wfFrom, Bool.and_eq_true, decide_eq_true_eq] at hm
    obtain ⟨⟨⟨-, hhigh⟩, -⟩, hrest⟩ := hm
    rw [Memory.lookup, if_neg (by omega), ih hrest]

/-- What a canonical list lists is known from what it reads as: an address that reads as its reset byte is unlisted. -/
theorem Memory.lookup_eq_of_read {lo a : Nat} {m : Memory} (hm : Memory.wfFrom lo m = true) :
    Memory.lookup m a = if m.read a = resetByte a then none else some (m.read a) := by
  have hne := Memory.lookup_ne_resetByte (a := a) hm
  unfold Memory.read
  cases hl : Memory.lookup m a with
  | none => rw [Option.getD_none, if_pos rfl]
  | some b =>
    have hb : b ≠ resetByte a := fun h => hne (hl.trans (congrArg some h))
    rw [Option.getD_some, if_neg hb]

/-- Canonical lists that read the same list the same. -/
theorem Memory.lookup_eq_of_read_eq {m m' : Memory} (hm : m.wf = true) (hm' : m'.wf = true)
    (h : ∀ a < 4096, m.read a = m'.read a) (a : Nat) : Memory.lookup m a = Memory.lookup m' a := by
  by_cases ha : a < 4096
  · rw [Memory.lookup_eq_of_read hm, Memory.lookup_eq_of_read hm', h a ha]
  · rw [Memory.lookup_of_ge hm (Nat.le_of_not_lt ha), Memory.lookup_of_ge hm' (Nat.le_of_not_lt ha)]

/-- The first address of a canonical list is the lowest listed. -/
theorem Memory.le_of_lookup_cons {k a : Nat} {b c : Byte} {rest : Memory} (hrest : Memory.wfFrom (k + 1) rest = true)
    (h : Memory.lookup ((k, b) :: rest) a = some c) : k ≤ a := by
  by_contra hlt
  rw [Memory.lookup, if_neg (by omega), Memory.lookup_of_lt hrest (by omega)] at h
  cases h

/-- Behind its first address a canonical list lists what it lists altogether, that address apart. -/
theorem Memory.lookup_rest {k a : Nat} {b : Byte} {rest : Memory} (hrest : Memory.wfFrom (k + 1) rest = true) :
    Memory.lookup rest a = if a = k then none else Memory.lookup ((k, b) :: rest) a := by
  split
  case isTrue ha => exact Memory.lookup_of_lt hrest (by omega)
  case isFalse ha => rw [Memory.lookup, if_neg (Ne.symm ha)]

/-- Canonical lists that list the same are equal: each begins with the lowest address listed. -/
theorem Memory.ext_lookup {lo lo' : Nat} {m m' : Memory} (hm : Memory.wfFrom lo m = true)
    (hm' : Memory.wfFrom lo' m' = true) (h : ∀ a, Memory.lookup m a = Memory.lookup m' a) : m = m' := by
  induction m generalizing lo lo' m' with
  | nil =>
    cases m' with
    | nil => rfl
    | cons p' rest' => simpa [Memory.lookup] using h p'.1
  | cons p rest ih =>
    obtain ⟨k, b⟩ := p
    cases m' with
    | nil => simpa [Memory.lookup] using h k
    | cons p' rest' =>
      obtain ⟨k', b'⟩ := p'
      simp only [Memory.wfFrom, Bool.and_eq_true] at hm hm'
      obtain ⟨-, hrest⟩ := hm
      obtain ⟨-, hrest'⟩ := hm'
      have hself : Memory.lookup ((k, b) :: rest) k = some b := if_pos rfl
      have hself' : Memory.lookup ((k', b') :: rest') k' = some b' := if_pos rfl
      have hk : k = k' := Nat.le_antisymm (Memory.le_of_lookup_cons hrest ((h k').trans hself'))
        (Memory.le_of_lookup_cons hrest' ((h k).symm.trans hself))
      subst hk
      obtain rfl : b = b' := Option.some.inj (hself.symm.trans ((h k).trans hself'))
      rw [ih hrest hrest' fun a => by rw [Memory.lookup_rest hrest, Memory.lookup_rest hrest', h a]]

/-- Settles O54: reads give what is listed, and what is listed gives the list. -/
theorem equalReadsGiveEqualMemories : Obligations.EqualReadsGiveEqualMemories := fun _ _ hm hm' h =>
  Memory.ext_lookup hm hm' (Memory.lookup_eq_of_read_eq hm hm' h)

end Sys2Proof.Machine
end

section
/-! The cells of a sprite (spec/44_display.md R111): a row has one for each set bit, and no cell comes twice. -/

namespace Sys2Proof.Machine

/-- Fewer than 32 rows and 64 columns apart, coordinates that wrap do not meet. -/
theorem cellIndex_inj {cx cy r r' c c' : Nat} (hr : r ≤ r') (hr' : r' < r + 32) (hc : c < 8) (hc' : c' < 8)
    (h : cellIndex cx cy r c = cellIndex cx cy r' c') : r = r' ∧ c = c' := by
  unfold cellIndex at h
  omega

theorem nodup_rowCells (cx cy r : Nat) (row : Byte) : (rowCells cx cy r row).Nodup := by
  refine List.Nodup.map_on (fun c hc c' hc' h => ?_) (List.nodup_range.filter _)
  obtain ⟨hc, -⟩ := List.mem_filter.mp hc
  obtain ⟨hc', -⟩ := List.mem_filter.mp hc'
  obtain ⟨-, hcol⟩ :=
    cellIndex_inj (Nat.le_refl r) (by omega) (List.mem_range.mp hc) (List.mem_range.mp hc') h
  exact hcol

/-- As long as the rows do not wrap onto themselves, the cells of a sprite are distinct. -/
theorem nodup_spriteCells (cx cy : Nat) {rows : List Byte} (hlen : rows.length ≤ 32) (r : Nat) :
    (spriteCells cx cy r rows).Nodup := by
  induction rows generalizing r with
  | nil => exact List.nodup_nil
  | cons row rows ih =>
    rw [List.length_cons] at hlen
    refine (nodup_rowCells cx cy r row).append (ih (by omega) (r + 1)) fun k hrow hrows => ?_
    obtain ⟨c, hc, -, rfl⟩ := mem_rowCells.mp hrow
    obtain ⟨j, hj, c', hc', -, heq⟩ := mem_spriteCells.mp hrows
    obtain ⟨hr, -⟩ := cellIndex_inj (by omega) (by omega) hc hc' heq
    omega

/-- Settles O34: fifteen rows are fewer than the display has. -/
theorem spriteCellsAreDistinct : Obligations.SpriteCellsAreDistinct := fun cx cy _ hlen =>
  nodup_spriteCells cx cy (hlen.trans (by decide)) 0

/-- A row has as many cells as set bits: reading the bits from the left does not change their number. -/
theorem length_rowCells (cx cy r : Nat) (row : Byte) : (rowCells cx cy r row).length = setBits row := by
  have hreverse : (List.range 8).map (7 - ·) = (List.range 8).reverse := by decide
  calc (rowCells cx cy r row).length
      = (List.range 8).countP (row.getLsbD ∘ (7 - ·)) := by
        rw [rowCells, List.length_map, List.countP_eq_length_filter]; rfl
    _ = setBits row := by rw [← List.countP_map, hreverse, List.countP_reverse, setBits]

theorem length_spriteCells (cx cy r : Nat) (rows : List Byte) :
    (spriteCells cx cy r rows).length = (rows.map setBits).sum := by
  induction rows generalizing r with
  | nil => rfl
  | cons row rows ih => rw [spriteCells, List.length_append, length_rowCells, ih, List.map_cons, List.sum_cons]

end Sys2Proof.Machine
end

section
/-! Draw-sprite (spec/44_display.md R110): what it leaves when its rows lie in memory, and the two outcomes. -/

namespace Sys2Proof.Machine

/-- The state that a draw with its rows in memory leaves. -/
def drawn (x y : RegIx) (n : BitVec 4) (s : State) : State :=
  setVF (flagByte (drawRows (drawColumn s x) (drawRow s y) (spriteRows s n.toNat) s.display).2)
    (setDisplay (drawRows (drawColumn s x) (drawRow s y) (spriteRows s n.toNat) s.display).1 s)

section

variable (x y : RegIx) {n : BitVec 4} {s : State}

theorem exec_drawSprite_of_inside (h : ¬ (n.toNat > 0 ∧ s.i.toNat + n.toNat - 1 > 0xFFF)) :
    exec (.drawSprite x y n) s = .next (drawn x y n s) :=
  if_pos ((rangeOk_iff s n.toNat).mpr h)

theorem exec_drawSprite_of_outside (h : n.toNat > 0 ∧ s.i.toNat + n.toNat - 1 > 0xFFF) :
    exec (.drawSprite x y n) s = .next (raiseDraw (drawColumn s x) (drawRow s y) n.toNat s) :=
  if_neg fun hok => (rangeOk_iff s n.toNat).mp hok h

end

section

variable {x y : RegIx} {n : BitVec 4} {s : State}

theorem length_spriteRows (s : State) (n : Nat) : (spriteRows s n).length = n := by
  rw [spriteRows, List.length_map, List.length_range]

/-- A draw of at most 15 rows meets no cell twice. -/
theorem nodup_drawnCells (x y : RegIx) (n : BitVec 4) (s : State) :
    (spriteCells (drawColumn s x) (drawRow s y) 0 (spriteRows s n.toNat)).Nodup := by
  have hn := n.isLt
  exact nodup_spriteCells _ _ (by rw [length_spriteRows]; omega) 0

theorem spriteCovers_lt {n k : Nat} (h : SpriteCovers s x y n k) : k < 2048 :=
  spriteCells_lt k ((mem_spriteCells_iff_covers s x y n k).mpr h)

@[simp] theorem drawn_i : (drawn x y n s).i = s.i := rfl
@[simp] theorem readMem_drawn (a : Nat) : readMem (drawn x y n s) a = readMem s a := rfl

theorem getV_drawn_of_ne {r : RegIx} (hr : r ≠ 0xF#4) : getV (drawn x y n s) r = getV s r := by
  rw [drawn, getV_setVF, if_neg hr, getV_setDisplay]

theorem sameBut_drawn : SameBut [.regs, .display] s (drawn x y n s) :=
  ((sameBut_setDisplay _ s).trans (sameBut_setVF _ _)).mono (by simp)

theorem cell_drawn_of_covers {k : Nat} (h : SpriteCovers s x y n.toNat k) :
    cell (drawn x y n s) k = !cell s k := by
  have hmem := (mem_spriteCells_iff_covers s x y n.toNat k).mpr h
  have hcount := List.count_eq_one_of_mem (nodup_drawnCells x y n s) hmem
  rw [drawn, cell_setVF, cell_setDisplay, drawRows, cellAt_flipCells spriteCells_lt, hcount]
  exact Bool.xor_true _

theorem cell_drawn_of_not_covers {k : Nat} (h : ¬ SpriteCovers s x y n.toNat k) :
    cell (drawn x y n s) k = cell s k := by
  have hmem := mt (mem_spriteCells_iff_covers s x y n.toNat k).mp h
  rw [drawn, cell_setVF, cell_setDisplay, drawRows, cellAt_flipCells spriteCells_lt, List.count_eq_zero_of_not_mem hmem]
  exact Bool.xor_false _

/-- A covered cell changes, and no other does. -/
theorem cell_drawn_ne_iff {k : Nat} : cell (drawn x y n s) k ≠ cell s k ↔ SpriteCovers s x y n.toNat k := by
  by_cases h : SpriteCovers s x y n.toNat k
  · simp [cell_drawn_of_covers h, h]
  · simp [cell_drawn_of_not_covers h, h]

/-- VF is the collision: whether a covered cell was 1. -/
theorem drawn_flag : ∃ hit : Bool, getV (drawn x y n s) 0xF#4 = flagByte hit ∧
    (hit = true ↔ ∃ k < 2048, SpriteCovers s x y n.toNat k ∧ cell s k = true) := by
  refine ⟨_, by rw [drawn, getV_setVF, if_pos rfl], ?_⟩
  rw [drawRows, flipCells_collision spriteCells_lt (nodup_drawnCells x y n s)]
  simp only [mem_spriteCells_iff_covers]
  exact exists_congr fun k => ⟨fun ⟨hk, h1⟩ => ⟨spriteCovers_lt hk, hk, h1⟩, fun ⟨_, hk, h1⟩ => ⟨hk, h1⟩⟩

theorem flagByte_eq_one_iff (b : Bool) : flagByte b = 1 ↔ b = true := by cases b <;> decide

theorem drawn_flag_eq_one_iff :
    getV (drawn x y n s) 0xF#4 = 1 ↔ ∃ k < 2048, SpriteCovers s x y n.toNat k ∧ cell s k = true := by
  obtain ⟨hit, hflag, hhit⟩ := drawn_flag (x := x) (y := y) (n := n) (s := s)
  rw [hflag, flagByte_eq_one_iff, hhit]

theorem drawn_flag_eq_zero (h : ¬ ∃ k < 2048, SpriteCovers s x y n.toNat k ∧ cell s k = true) :
    getV (drawn x y n s) 0xF#4 = 0 := by
  obtain ⟨hit, hflag, hhit⟩ := drawn_flag (x := x) (y := y) (n := n) (s := s)
  rw [hflag, Bool.eq_false_iff.mpr (mt hhit.mp h)]
  rfl

end

/-- Settles O33: inside memory by the state a draw leaves, outside it by what the error may write. -/
theorem drawXorsSprite : Obligations.DrawXorsSprite := fun x y n s => by
  refine ⟨decodeOpcode_packXY_drawSprite x y n, fun h => ?_, fun h => ?_⟩
  · exact ⟨_, exec_drawSprite_of_inside x y h, fun _ _ => cell_drawn_of_covers, fun _ _ => cell_drawn_of_not_covers,
      drawn_flag_eq_one_iff.mpr, drawn_flag_eq_zero, fun _ => getV_drawn_of_ne, sameBut_drawn⟩
  · obtain ⟨hfault, hregs, hcells, -⟩ := raiseDraw_spec (drawColumn s x) (drawRow s y) n.toNat s
    exact ⟨_, exec_drawSprite_of_outside x y h, hfault,
      fun k _ hk => hcells k (mt (mem_areaCells_iff_area s x y n.toNat k).mp hk), hregs,
      (sameBut_raiseDraw _ _ _ s).mono (by simp)⟩

/-- A sprite whose coordinates are not in VF covers the same cells after it is drawn. -/
theorem spriteCovers_drawn {x y : RegIx} (hx : x ≠ 0xF#4) (hy : y ≠ 0xF#4) (n : BitVec 4) (s : State) (m k : Nat) :
    SpriteCovers (drawn x y n s) x y m k ↔ SpriteCovers s x y m k := by
  simp only [SpriteCovers, SpriteCell, readMem_drawn, drawn_i, getV_drawn_of_ne hx, getV_drawn_of_ne hy]

/-- Settles O35: the second draw covers the cells of the first, so it complements them back, and it meets a 1 where the first
met a 0. -/
theorem drawTwiceRestoresDisplay : Obligations.DrawTwiceRestoresDisplay := fun x y n s hx hy h => by
  have hcovers := spriteCovers_drawn hx hy n s n.toNat
  refine ⟨_, _, exec_drawSprite_of_inside x y h, exec_drawSprite_of_inside x y h, fun k _ => ?_,
    drawn_flag_eq_one_iff, ?_⟩
  · by_cases hk : SpriteCovers s x y n.toNat k
    · rw [cell_drawn_of_covers ((hcovers k).mpr hk), cell_drawn_of_covers hk, Bool.not_not]
    · rw [cell_drawn_of_not_covers (mt (hcovers k).mp hk), cell_drawn_of_not_covers hk]
  · rw [drawn_flag_eq_one_iff]
    refine exists_congr fun k => and_congr_right fun _ => ?_
    rw [hcovers k]
    exact and_congr_right fun hk => by rw [cell_drawn_of_covers hk, Bool.not_eq_true']

/-- Settles O36: the cells that change are the covered ones, which are as many as the set bits. -/
theorem drawChangesOneCellPerSetBit : Obligations.DrawChangesOneCellPerSetBit := fun x y n s h => by
  refine ⟨_, exec_drawSprite_of_inside x y h, ?_⟩
  rw [countP_range_mem (nodup_drawnCells x y n s) spriteCells_lt _ fun k => ?_, length_spriteCells, spriteRows,
    List.map_map]
  · rfl
  · rw [bne_iff_ne, cell_drawn_ne_iff, mem_spriteCells_iff_covers]

end Sys2Proof.Machine
end

section
/-! The errors of the instructions (spec/60_exceptions.md R134): every instruction answers, and FAULT is set by the error table
alone. -/

namespace Sys2Proof.Machine

/-- An instruction answers one state. -/
theorem exec_next_unique {i : Instr} {s t u : State} (hu : exec i s = .next u) (ht : exec i s = .next t) : u = t :=
  Host.Outcome.next.inj (hu.symm.trans ht)

/-- SP as the number of an entry, unless the stack is full. -/
theorem sp_cases_push (s : State) : s.sp.val = 16 ∨ ∃ j : Fin 16, s.sp.val = j.val := by
  by_cases h : s.sp.val = 16
  · exact .inl h
  · exact .inr ⟨⟨s.sp.val, by omega⟩, rfl⟩

/-- SP as the number above an entry, unless the stack is empty. -/
theorem sp_cases_pop (s : State) : s.sp.val = 0 ∨ ∃ j : Fin 16, s.sp.val = j.val + 1 := by
  by_cases h : s.sp.val = 0
  · exact .inl h
  · exact .inr ⟨⟨s.sp.val - 1, by omega⟩, (Nat.sub_add_cancel (Nat.pos_of_ne_zero h)).symm⟩

/-- Every instruction answers: where a row of the error table applies, with that error; else with FAULT and the counter of free
values as they were. -/
theorem exec_outcome (i : Instr) (s : State) : ∃ t, exec i s = .next t ∧
    ((∃ e, Raises i s e ∧ t.fault = some e) ∨ ((∀ e, ¬ Raises i s e) ∧ t.fault = s.fault ∧ t.free = s.free)) := by
  cases i
  case ret =>
    obtain h | ⟨j, h⟩ := sp_cases_pop s
    · exact ⟨_, exec_ret_of_sp_eq_zero h, .inl ⟨_, .ret h, rfl⟩⟩
    · exact ⟨_, exec_ret_of_sp_eq_succ h, .inr ⟨fun _ hr => by cases hr; omega, rfl, rfl⟩⟩
  case call nnn =>
    obtain h | ⟨j, h⟩ := sp_cases_push s
    · exact ⟨_, exec_call_of_sp_eq_sixteen nnn h, .inl ⟨_, .call h, rfl⟩⟩
    · exact ⟨_, exec_call_of_sp_eq nnn h, .inr ⟨fun _ hr => by cases hr; omega, rfl, rfl⟩⟩
  case drawSprite x y n =>
    by_cases h : n.toNat > 0 ∧ s.i.toNat + n.toNat - 1 > 0xFFF
    · exact ⟨_, exec_drawSprite_of_outside x y h, .inl ⟨_, .draw h.1 h.2, rfl⟩⟩
    · exact ⟨_, exec_drawSprite_of_inside x y h, .inr ⟨fun _ hr => by cases hr; omega, rfl, rfl⟩⟩
  case bcd x =>
    obtain h | h := Nat.lt_or_ge 0xFFF (s.i.toNat + 2)
    · exact ⟨_, exec_bcd_of_gt x h, .inl ⟨_, .bcd h, rfl⟩⟩
    · exact ⟨_, exec_bcd_of_le x h, .inr ⟨fun _ hr => by cases hr; omega, rfl, rfl⟩⟩
  case storeRegs x =>
    obtain h | h := Nat.lt_or_ge 0xFFF (s.i.toNat + x.toNat)
    · exact ⟨_, exec_storeRegs_of_gt x h, .inl ⟨_, .storeRegs h, rfl⟩⟩
    · exact ⟨_, exec_storeRegs_of_le x h, .inr ⟨fun _ hr => by cases hr; omega, rfl, rfl⟩⟩
  case loadRegs x =>
    obtain h | h := Nat.lt_or_ge 0xFFF (s.i.toNat + x.toNat)
    · exact ⟨_, exec_loadRegs_of_gt x h, .inl ⟨_, .loadRegs h, rfl⟩⟩
    · exact ⟨_, exec_loadRegs_of_le x h, .inr ⟨fun _ hr => by cases hr; omega, rfl, rfl⟩⟩
  case waitKey x =>
    by_cases h : s.keys = 0
    · exact ⟨_, exec_waitKey_of_no_key x s h, .inr ⟨nofun, rfl, rfl⟩⟩
    · exact ⟨_, exec_waitKey_of_key x s h, .inr ⟨nofun, rfl, rfl⟩⟩
  case skipEqImm | skipNeImm | skipEqReg | skipNeReg | skipKeyDown | skipKeyUp =>
    exact ⟨_, rfl, .inr ⟨nofun, skipIf_fault _ s, skipIf_free _ s⟩⟩
  all_goals exact ⟨_, rfl, .inr ⟨nofun, rfl, rfl⟩⟩

section

variable {i : Instr} {s t : State} {e e' : RuntimeError}

/-- At most one row of the table applies. -/
theorem Raises.unique (h : Raises i s e) (h' : Raises i s e') : e = e' := by
  cases h <;> cases h' <;> rfl

/-- The table reads I and SP alone, so the advance of PC does not matter to it. -/
theorem raises_advancePc : Raises i (advancePc s) e ↔ Raises i s e := by
  constructor
  all_goals
    intro h
    cases h
    case draw hn hi => exact .draw hn hi
    case bcd hi => exact .bcd hi
    case storeRegs hi => exact .storeRegs hi
    case loadRegs hi => exact .loadRegs hi
    case call hsp => exact .call hsp
    case ret hsp => exact .ret hsp

/-- An instruction that answers raised an error of the table, or left FAULT and the counter of free values. -/
theorem exec_fault_cases (h : exec i s = .next t) :
    (∃ e, Raises i s e ∧ t.fault = some e) ∨ ((∀ e, ¬ Raises i s e) ∧ t.fault = s.fault ∧ t.free = s.free) := by
  obtain ⟨t', h', hcases⟩ := exec_outcome i s
  obtain rfl := exec_next_unique h' h
  exact hcases

/-- From a state without FAULT an instruction raises exactly what the table says. -/
theorem exec_fault_eq_some_iff (h : exec i s = .next t) (hs : s.fault = none) : t.fault = some e ↔ Raises i s e := by
  obtain ⟨e', hraises, hfault⟩ | ⟨hnone, hfault, -⟩ := exec_fault_cases h
  · rw [hfault, Option.some.injEq]
    exact ⟨fun he => he ▸ hraises, hraises.unique⟩
  · simp [hfault, hs, hnone e]

end

/-- Settles O50: above 0xFFE the error is that of the fetch; below, the step is the instruction, which answers with the error of
its row. -/
theorem stepRaisesExactlyTheTable : Obligations.StepRaisesExactlyTheTable := by
  refine ⟨fun s hfault => ?_, rfl, rfl, rfl⟩
  obtain hpc | hpc := Nat.lt_or_ge 0xFFE s.pc.toNat
  · refine ⟨_, step_of_fetch_error hfault hpc, fun e => ?_⟩
    simp [Nat.not_le_of_gt hpc, hpc, eq_comm]
  · obtain ⟨t, hexec, -⟩ := exec_outcome (decodeOpcode (opcodeAtPc s)) (advancePc s)
    refine ⟨t, (step_of_fetch hfault hpc).trans hexec, fun e => ?_⟩
    rw [exec_fault_eq_some_iff hexec hfault, raises_advancePc]
    simp [Nat.not_lt_of_ge hpc, hpc]

end Sys2Proof.Machine
end

section
/-! The registers of the instructions (spec/10_state.md R18, R35): which of them each writes, and the flag it leaves. -/

namespace Sys2Proof.Machine

/-- An instruction writes the registers of its row at most, an error among them or not. -/
theorem exec_getV_of_not_writes {i : Instr} {s t : State} (h : exec i s = .next t) {r : RegIx} (hr : ¬ Writes i r) :
    getV t r = getV s r := by
  cases i
  case loadImm | addImm | regMov | regOr | regAnd | regXor | random | getDelay =>
    obtain rfl := Host.Outcome.next.inj h
    exact (getV_setV _ _ _ r).trans (if_neg hr)
  case regAdd | regSub | regShr | regSubn | regShl =>
    obtain ⟨hx, hflag⟩ := not_or.mp hr
    obtain rfl := Host.Outcome.next.inj h
    exact ((getV_setVF _ _ r).trans (if_neg hflag)).trans ((getV_setV _ _ _ r).trans (if_neg hx))
  case waitKey x =>
    by_cases hkeys : s.keys = 0
    · obtain rfl := exec_next_unique (exec_waitKey_of_no_key x s hkeys) h
      exact getV_rewindPc s r
    · obtain rfl := exec_next_unique (exec_waitKey_of_key x s hkeys) h
      exact (getV_setV _ _ _ r).trans (if_neg hr)
  case drawSprite x y n =>
    by_cases hi : n.toNat > 0 ∧ s.i.toNat + n.toNat - 1 > 0xFFF
    · obtain rfl := exec_next_unique (exec_drawSprite_of_outside x y hi) h
      obtain ⟨-, hregs, -⟩ := raiseDraw_spec (drawColumn s x) (drawRow s y) n.toNat s
      exact hregs r hr
    · obtain rfl := exec_next_unique (exec_drawSprite_of_inside x y hi) h
      exact getV_drawn_of_ne hr
  case loadRegs x =>
    have hx : x.toNat < r.toNat := Nat.lt_of_not_le hr
    obtain hi | hi := Nat.lt_or_ge 0xFFF (s.i.toNat + x.toNat)
    · obtain rfl := exec_next_unique (exec_loadRegs_of_gt x hi) h
      obtain ⟨-, hregs, -⟩ := raiseLoad_spec x s
      exact hregs r hx
    · obtain rfl := exec_next_unique (exec_loadRegs_of_le x hi) h
      exact getV_setVUpTo_of_gt _ s hx
  all_goals exact exec_sameBut h .regs (by simp [partsWritten]) r

/-- Settles O47: the registers by the row of R18, the parts by the state summary, FAULT and the counter by the error table. -/
theorem onlyListedPartsAreWritten : Obligations.OnlyListedPartsAreWritten := fun i s t h => by
  refine ⟨fun r hr => exec_getV_of_not_writes h hr, exec_sameBut h, fun hnone => ?_⟩
  obtain ⟨e, hraises, -⟩ | ⟨-, hfault, hfree⟩ := exec_fault_cases h
  · exact absurd hraises (hnone e)
  · exact ⟨hfault, hfree⟩

/-- The flag is written last, so VF reads as the flag whatever the result and the register. -/
theorem getV_setVF_flag (b : Byte) (s : State) : getV (setVF b s) 0xF#4 = b := by
  rw [getV_setVF, if_pos rfl]

/-- Settles O46: each of the six writes its flag last, and the others write VF only where it is a register of their row. -/
theorem flagWriters : Obligations.FlagWriters := by
  refine ⟨fun x y s => ⟨?_, ?_, ?_, ?_, ?_⟩, fun x y n s h => ?_, fun i s t h => exec_getV_of_not_writes h⟩
  · exact ⟨_, exec_regAdd x y s, (getV_setVF_flag _ _).trans (carryFlag_eq _ _)⟩
  · exact ⟨_, exec_regSub x y s, (getV_setVF_flag _ _).trans (notBorrowFlag_eq _ _)⟩
  · exact ⟨_, exec_regSubn x y s, (getV_setVF_flag _ _).trans (notBorrowFlag_eq _ _)⟩
  · exact ⟨_, exec_regShr x y s, getV_setVF_flag _ _⟩
  · exact ⟨_, exec_regShl x y s, getV_setVF_flag _ _⟩
  · refine ⟨_, exec_drawSprite_of_inside x y h, ?_, drawn_flag_eq_one_iff⟩
    by_cases hhit : ∃ k < 2048, SpriteCovers s x y n.toNat k ∧ cell s k = true
    · exact .inl (drawn_flag_eq_one_iff.mpr hhit)
    · exact .inr (drawn_flag_eq_zero hhit)

/-- No row of the state summary lists KEYS. -/
theorem keys_not_mem_partsWritten (i : Instr) : .keys ∉ partsWritten i := by
  cases i <;> simp [partsWritten]

/-- Settles O49: neither a fetch error nor an instruction writes KEYS. -/
theorem stepNeverChangesKeys : Obligations.StepNeverChangesKeys := fun s t h => by
  obtain ⟨-, ⟨-, rfl⟩ | ⟨-, hexec⟩⟩ := step_cases h
  · exact raiseError_keys _ s
  · exact exec_sameBut hexec .keys (by simp [keys_not_mem_partsWritten])

end Sys2Proof.Machine
end

section
/-! PC after a step (spec/10_state.md R21; spec/60_exceptions.md R137): by the table when the step returns Ok, and two bytes
further when an instruction raises an error. -/

namespace Sys2Proof.Machine

section

variable {s t : State}

/-- The advance of the step and a taken skip are four bytes. -/
theorem advancePc_pc_add_two (s : State) : (advancePc s).pc + 2 = s.pc + 4 := by
  rw [advancePc_pc, BitVec.add_assoc]
  rfl

/-- A skip in a step, by the condition that its row of the table names. -/
theorem skipIf_advancePc_pc {c : Bool} {p : Prop} [Decidable p] (hc : c = true ↔ p) :
    (skipIf c (advancePc s)).pc = if p then s.pc + 4 else s.pc + 2 := by
  rw [skipIf_pc, advancePc_pc_add_two, advancePc_pc]
  simp only [hc]

/-- An entry of the stack as an element of its list, which is how the table reads it. -/
theorem getD_toList_stack (s : State) (j : Fin 16) : s.stack.toList.getD j.val 0 = s.stack[j] := by
  simp [List.getD_eq_getElem?_getD]

theorem setWidth_addr_eq_ofNat (nnn : Addr) : nnn.setWidth 16 = BitVec.ofNat 16 nnn.toNat :=
  (BitVec.ofNat_toNat 16 nnn).symm

/-- PC after an instruction that no row of the error table stops. -/
theorem exec_pc_of_not_raises {i : Instr} (hok : ∀ e, ¬ Raises i s e) (h : exec i (advancePc s) = .next t) :
    t.pc = pcAfter i s.pc s := by
  cases i
  case ret =>
    obtain hsp | ⟨j, hsp⟩ := sp_cases_pop s
    · exact absurd (.ret hsp) (hok _)
    · obtain rfl := exec_next_unique (exec_ret_of_sp_eq_succ (s := advancePc s) hsp) h
      have hj : s.sp.val - 1 = j.val := by omega
      rw [pcAfter, hj, getD_toList_stack]
      rfl
  case call nnn =>
    obtain hsp | ⟨j, hsp⟩ := sp_cases_push s
    · exact absurd (.call hsp) (hok _)
    · obtain rfl := exec_next_unique (exec_call_of_sp_eq (s := advancePc s) nnn hsp) h
      exact setWidth_addr_eq_ofNat nnn
  case jump nnn =>
    obtain rfl := Host.Outcome.next.inj h
    exact setWidth_addr_eq_ofNat nnn
  case jumpOffset nnn =>
    obtain rfl := Host.Outcome.next.inj h
    obtain ⟨hsum, hle⟩ := toNat_addr_add_byte nnn (getV s 0x0#4)
    refine BitVec.eq_of_toNat_eq (hsum.trans ?_)
    rw [pcAfter, BitVec.toNat_ofNat, Nat.mod_eq_of_lt (by omega)]
  case waitKey x =>
    by_cases hkeys : s.keys = 0
    · obtain rfl := exec_next_unique (exec_waitKey_of_no_key x (advancePc s) hkeys) h
      rw [rewindPc_advancePc, pcAfter, if_pos hkeys]
    · obtain rfl := exec_next_unique (exec_waitKey_of_key x (advancePc s) hkeys) h
      rw [setV_pc, pcAfter, if_neg hkeys, advancePc_pc]
  case skipEqImm | skipEqReg =>
    obtain rfl := Host.Outcome.next.inj h
    exact skipIf_advancePc_pc beq_iff_eq
  case skipNeImm | skipNeReg =>
    obtain rfl := Host.Outcome.next.inj h
    exact skipIf_advancePc_pc bne_iff_ne
  case skipKeyDown x =>
    obtain rfl := Host.Outcome.next.inj h
    refine skipIf_advancePc_pc ?_
    rw [keyIndex_eq]
    rfl
  case skipKeyUp x =>
    obtain rfl := Host.Outcome.next.inj h
    refine skipIf_advancePc_pc ?_
    rw [keyIndex_eq, Bool.not_eq_true']
    rfl
  all_goals exact exec_sameBut h .pc (by simp [partsWritten])

/-- An instruction that raises an error leaves PC where the step has put it. -/
theorem exec_pc_of_raises {i : Instr} {e : RuntimeError} (hraises : Raises i s e) (h : exec i s = .next t) :
    t.pc = s.pc := by
  cases hraises
  case call hsp =>
    obtain rfl := exec_next_unique (exec_call_of_sp_eq_sixteen _ hsp) h
    rfl
  case ret hsp =>
    obtain rfl := exec_next_unique (exec_ret_of_sp_eq_zero hsp) h
    rfl
  all_goals exact exec_sameBut h .pc (by simp [partsWritten])

/-- Settles O45: a step without an error is an instruction that no row stops. -/
theorem pcAfterStep : Obligations.PcAfterStep := fun s t h hok => by
  obtain ⟨hs, ⟨-, rfl⟩ | ⟨-, hexec⟩⟩ := step_cases h
  · cases hok
  · refine exec_pc_of_not_raises (fun e hraises => ?_) hexec
    have hfault := (exec_fault_eq_some_iff hexec hs).mpr (raises_advancePc.mpr hraises)
    rw [hok] at hfault
    cases hfault

end

end Sys2Proof.Machine
end

section
/-! The state after an error (spec/60_exceptions.md R137), by the instruction that raises it. -/

namespace Sys2Proof.Machine

section

variable {s t : State} {e : RuntimeError}

/-- A step from PC to the state that its instruction leaves: the frame of the instruction, and PC. -/
theorem SameBut.of_advancePc {changed : List Part} (h : SameBut changed (advancePc s) t) : SameBut (.pc :: changed) s t :=
  (sameBut_setPc _ s).trans h

theorem drawSprite_error_frame {x y : RegIx} {n : BitVec 4} (h : exec (.drawSprite x y n) (advancePc s) = .next t)
    (hraises : Raises (.drawSprite x y n) s e) :
    (∀ r, r ≠ 0xF#4 → getV t r = getV s r) ∧ (∀ k < 2048, ¬ SpriteArea s x y n.toNat k → cell t k = cell s k) ∧
      SameBut [.pc, .regs, .display, .fault, .free] s t := by
  cases hraises with
  | draw hn hi =>
    obtain ⟨-, -, herror⟩ := drawXorsSprite x y n (advancePc s)
    obtain ⟨u, hu, -, hcells, hregs, hframe⟩ := herror ⟨hn, hi⟩
    obtain rfl := exec_next_unique hu h
    exact ⟨hregs, hcells, hframe.of_advancePc⟩

theorem bcd_error_frame {x : RegIx} (h : exec (.bcd x) (advancePc s) = .next t) (hraises : Raises (.bcd x) s e) :
    (∀ a, (a < s.i.toNat ∨ s.i.toNat + 2 < a) → readMem t a = readMem s a) ∧
      SameBut [.pc, .memory, .fault, .free] s t := by
  cases hraises with
  | bcd hi =>
    obtain ⟨-, -, herror⟩ := bcdWritesDigits x (advancePc s)
    obtain ⟨u, hu, -, houtside, hframe⟩ := herror hi
    obtain rfl := exec_next_unique hu h
    exact ⟨houtside, hframe.of_advancePc⟩

theorem storeRegs_error_frame {x : RegIx} (h : exec (.storeRegs x) (advancePc s) = .next t)
    (hraises : Raises (.storeRegs x) s e) :
    (∀ a, (a < s.i.toNat ∨ s.i.toNat + x.toNat < a) → readMem t a = readMem s a) ∧
      SameBut [.pc, .memory, .fault, .free] s t := by
  cases hraises with
  | storeRegs hi =>
    obtain ⟨-, -, herror⟩ := storeRegsCopiesRegisters x (advancePc s)
    obtain ⟨u, hu, -, houtside, hframe⟩ := herror hi
    obtain rfl := exec_next_unique hu h
    exact ⟨houtside, hframe.of_advancePc⟩

theorem loadRegs_error_frame {x : RegIx} (h : exec (.loadRegs x) (advancePc s) = .next t)
    (hraises : Raises (.loadRegs x) s e) :
    (∀ r : RegIx, x.toNat < r.toNat → getV t r = getV s r) ∧ SameBut [.pc, .regs, .fault, .free] s t := by
  cases hraises with
  | loadRegs hi =>
    obtain ⟨-, -, herror⟩ := loadRegsCopiesMemory x (advancePc s)
    obtain ⟨u, hu, -, habove, hframe⟩ := herror hi
    obtain rfl := exec_next_unique hu h
    exact ⟨habove, hframe.of_advancePc⟩

theorem ret_error_frame (h : exec .ret (advancePc s) = .next t) (hraises : Raises .ret s e) :
    SameBut [.pc, .fault] s t := by
  cases hraises with
  | ret hsp =>
    obtain rfl := exec_next_unique (exec_ret_of_sp_eq_zero (s := advancePc s) hsp) h
    exact (sameBut_raiseError _ _).of_advancePc

theorem call_error_frame {nnn : Addr} (h : exec (.call nnn) (advancePc s) = .next t) (hraises : Raises (.call nnn) s e) :
    SameBut [.pc, .fault] s t := by
  cases hraises with
  | call hsp =>
    obtain rfl := exec_next_unique (exec_call_of_sp_eq_sixteen (s := advancePc s) nnn hsp) h
    exact (sameBut_raiseError _ _).of_advancePc

end

/-- Settles O51: a fetch error by what it writes; an error of the instruction by the row of the table that applies to it. -/
theorem stateAfterError : Obligations.StateAfterError := fun s t e h herror => by
  obtain ⟨hs, ⟨hpc, rfl⟩ | ⟨hpc, hexec⟩⟩ := step_cases h
  · obtain rfl := Option.some.inj herror
    exact ⟨fun _ => rfl, fun hle => absurd hpc (Nat.not_lt_of_ge hle)⟩
  · have hraises : Raises (decodeOpcode (opcodeAtPc s)) s e :=
      raises_advancePc.mp ((exec_fault_eq_some_iff hexec hs).mp herror)
    refine ⟨fun hlt => absurd hpc (Nat.not_le_of_gt hlt), fun _ =>
      ⟨exec_pc_of_raises (raises_advancePc.mpr hraises) hexec, ?_⟩⟩
    refine ⟨fun x y n hi => ?_, fun x hi => ?_, fun x hi => ?_, fun x hi => ?_, fun hi => ?_, fun nnn hi => ?_⟩
    all_goals rw [hi] at hexec hraises
    · exact drawSprite_error_frame hexec hraises
    · exact bcd_error_frame hexec hraises
    · exact storeRegs_error_frame hexec hraises
    · exact loadRegs_error_frame hexec hraises
    · exact ret_error_frame hexec hraises
    · exact call_error_frame hexec hraises

/-- Settles O52: a step has no next state, and no other operation writes FAULT or needs a CORE that is not halted. -/
theorem haltedCoreStaysHalted : Obligations.HaltedCoreStaysHalted := fun S e hS => by
  have hstep : Session.call .step S = .fault (.halted e) := by simp only [Session.call, step_of_fault hS]
  refine ⟨hstep, fun op S' r h => ?_, fun op hop hload => ?_⟩
  · by_cases hop : op = .step
    · rw [hop, hstep] at h
      cases h
    · by_cases hdec : op = .decrementTimers
      · subst hdec
        cases h
        exact hS
      · have hfault : S'.core.fault = S.core.fault := call_sameBut h hop hdec .fault (by simp)
        exact hfault.trans hS
  · cases op
    case step => exact absurd rfl hop
    case load bytes => exact absurd rfl (hload bytes)
    all_goals exact ⟨_, _, rfl⟩

end Sys2Proof.Machine
end

section
/-! The invariant of the machine (spec/10_state.md R22): construction meets it, and every step and host operation keeps it. -/

namespace Sys2Proof.Machine

/-- Every return address on the stack is at most 0x1000. -/
def StackBounded (s : State) : Prop := ∀ j : Fin 16, j.val < s.sp.val → s.stack[j].toNat ≤ 0x1000

section

variable {i : Instr} {s t : State}

/-- The invariant reads memory as data, PC and the stack alone. -/
theorem StateInv.congr (h : StateInv s) (hmem : t.mem = s.mem) (hpc : t.pc = s.pc) (hsp : t.sp = s.sp)
    (hstack : t.stack = s.stack) : StateInv t := by
  unfold StateInv
  rw [hmem, hpc, hsp, hstack]
  exact h

/-! ## Memory -/

theorem exec_mem_wf (h : exec i s = .next t) (hs : s.mem.wf = true) : t.mem.wf = true := by
  cases i
  case bcd | storeRegs =>
    simp only [exec, execBcd, execStoreRegs] at h
    split at h <;> cases h <;> exact Memory.wf_writeAll hs _ _
  case ret =>
    obtain hsp | ⟨j, hsp⟩ := sp_cases_pop s
    · obtain rfl := exec_next_unique (exec_ret_of_sp_eq_zero hsp) h
      exact hs
    · obtain rfl := exec_next_unique (exec_ret_of_sp_eq_succ hsp) h
      exact hs
  case call nnn =>
    obtain hsp | ⟨j, hsp⟩ := sp_cases_push s
    · obtain rfl := exec_next_unique (exec_call_of_sp_eq_sixteen nnn hsp) h
      exact hs
    · obtain rfl := exec_next_unique (exec_call_of_sp_eq nnn hsp) h
      exact hs
  case waitKey | drawSprite | loadRegs =>
    simp only [exec, execWaitKey, execDrawSprite, execLoadRegs] at h
    split at h <;> cases h <;> exact hs
  case skipEqImm | skipNeImm | skipEqReg | skipNeReg | skipKeyDown | skipKeyUp =>
    cases h
    rwa [skipIf_mem]
  all_goals
    cases h
    exact hs

/-! ## The stack -/

/-- A push of an address in bounds keeps the bounds. -/
theorem StackBounded.push {j : Fin 16} {w : Word} (hs : StackBounded s) (hsp : s.sp.val = j.val) (hw : w.toNat ≤ 0x1000)
    (htsp : t.sp.val = j.val + 1) (htstack : t.stack = s.stack.set j.val w) : StackBounded t := by
  intro k hk
  by_cases hkj : k = j
  · subst hkj
    rw [htstack]
    simpa using hw
  · have hne : k.val ≠ j.val := fun h => hkj (Fin.ext h)
    have hget : t.stack[k] = s.stack[k] := by
      rw [htstack]
      exact Vector.getElem_set_ne j.isLt k.isLt hne.symm
    rw [hget]
    exact hs k (by omega)

/-- Fewer entries of the same stack keep the bounds. -/
theorem StackBounded.of_le (hs : StackBounded s) (hsp : t.sp.val ≤ s.sp.val) (hstack : t.stack = s.stack) :
    StackBounded t := by
  intro j hj
  rw [hstack]
  exact hs j (by omega)

theorem exec_stackBounded (h : exec i s = .next t) (hpc : s.pc.toNat ≤ 0x1000) (hs : StackBounded s) :
    StackBounded t := by
  cases i
  case ret =>
    obtain hsp | ⟨j, hsp⟩ := sp_cases_pop s
    · obtain rfl := exec_next_unique (exec_ret_of_sp_eq_zero hsp) h
      exact hs
    · obtain rfl := exec_next_unique (exec_ret_of_sp_eq_succ hsp) h
      exact hs.of_le (hsp ▸ Nat.le_succ j.val) rfl
  case call nnn =>
    obtain hsp | ⟨j, hsp⟩ := sp_cases_push s
    · obtain rfl := exec_next_unique (exec_call_of_sp_eq_sixteen nnn hsp) h
      exact hs
    · obtain rfl := exec_next_unique (exec_call_of_sp_eq nnn hsp) h
      exact hs.push hsp hpc rfl rfl
  all_goals
    have hframe := exec_sameBut h
    exact hs.of_le (Fin.le_of_eq (hframe .sp (by simp [partsWritten]))) (hframe .stack (by simp [partsWritten]))

/-! ## PC -/

/-- The table of R21 stays in bounds. -/
theorem pcAfter_le {pca : Word} (hpca : pca.toNat ≤ 0xFFE) (hs : StackBounded s) (hok : ∀ e, ¬ Raises i s e) :
    (pcAfter i pca s).toNat ≤ 0x10FE := by
  have htwo : (pca + 2).toNat ≤ 0x10FE := by rw [pc_add_two hpca]; omega
  have hfour : (pca + 4).toNat ≤ 0x10FE := by
    have hsum : (pca + 4).toNat = (pca.toNat + 4) % 2 ^ 16 := BitVec.toNat_add pca 4
    omega
  cases i
  case ret =>
    obtain hsp | ⟨j, hsp⟩ := sp_cases_pop s
    · exact absurd (.ret hsp) (hok _)
    · have hj : s.sp.val - 1 = j.val := by omega
      rw [pcAfter, hj, getD_toList_stack]
      exact (hs j (by omega)).trans (by decide)
  case jump nnn | call nnn =>
    have hnnn := nnn.isLt
    rw [pcAfter, BitVec.toNat_ofNat]
    omega
  case jumpOffset nnn =>
    obtain ⟨-, hle⟩ := toNat_addr_add_byte nnn (getV s 0x0#4)
    rw [pcAfter, BitVec.toNat_ofNat]
    omega
  case waitKey =>
    rw [pcAfter]
    split
    · omega
    · exact htwo
  case skipEqImm | skipNeImm | skipEqReg | skipNeReg | skipKeyDown | skipKeyUp =>
    rw [pcAfter]
    split
    · exact hfour
    · exact htwo
  all_goals exact htwo

theorem step_pc_le (h : step s = .next t) (hpc : s.pc.toNat ≤ 0x10FE) (hs : StackBounded s) : t.pc.toNat ≤ 0x10FE := by
  obtain ⟨-, ⟨-, rfl⟩ | ⟨hle, hexec⟩⟩ := step_cases h
  · exact hpc
  · obtain ⟨e, hraises, -⟩ | ⟨hok, -⟩ := exec_fault_cases hexec
    · rw [exec_pc_of_raises hraises hexec, advancePc_pc, pc_add_two hle]
      omega
    · have hok' : ∀ e, ¬ Raises (decodeOpcode (opcodeAtPc s)) s e := fun e => mt raises_advancePc.mpr (hok e)
      rw [exec_pc_of_not_raises hok' hexec]
      exact pcAfter_le hle hs hok'

end

/-- Settles O44: a fetch error writes none of what the invariant reads, and an instruction keeps each of its three parts. -/
theorem stepKeepsInvariant : Obligations.StepKeepsInvariant := fun s t ⟨hmem, hpc, hstack⟩ h => by
  have hpc' := step_pc_le h hpc hstack
  obtain ⟨-, ⟨-, rfl⟩ | ⟨hle, hexec⟩⟩ := step_cases h
  · exact ⟨hmem, hpc, hstack⟩
  · have hadvance : (advancePc s).pc.toNat ≤ 0x1000 := by
      rw [advancePc_pc, pc_add_two hle]
      omega
    exact ⟨exec_mem_wf hexec hmem, hpc', exec_stackBounded hexec hadvance hstack⟩

/-- Settles O43: memory lists nothing, PC is 0x200 and no stack entry is occupied. -/
theorem resetMeetsInvariant : Obligations.ResetMeetsInvariant :=
  ⟨State.reset_mem_wf, by decide, fun j hj => absurd hj (Nat.not_lt_zero j.val)⟩

/-- Settles O59: a load keeps the canonical form, a step keeps the invariant, and the other operations write none of what it
reads. -/
theorem hostOperationsKeepInvariant : Obligations.HostOperationsKeepInvariant := fun op S S' r hS h => by
  obtain ⟨bytes, rfl, -, -, rfl⟩ | ⟨rfl, t, hstep, rfl⟩ | ⟨rfl, rfl⟩ | ⟨k, rfl, rfl⟩ | ⟨k, rfl, rfl⟩ | ⟨rfl, -⟩ :=
    call_cases h
  · obtain ⟨hmem, hrest⟩ := hS
    exact ⟨Memory.wf_writeAll hmem _ bytes, hrest⟩
  · exact stepKeepsInvariant S.core t hS hstep
  · exact hS.congr rfl rfl rfl rfl
  · simp only [pressKey]
    split
    · exact hS.congr rfl rfl rfl rfl
    · exact hS
  · simp only [releaseKey]
    split
    · exact hS.congr rfl rfl rfl rfl
    · exact hS
  · exact hS

end Sys2Proof.Machine
end

section
/-! The sessions the host can reach (spec/70_reset_and_hazards.md R154): the invariant, and what stands as constructed until the
first step. -/

namespace Sys2Proof.Machine

/-- Timers at 0 have nothing to count down. -/
theorem decrementTimers_of_zero {s : State} (hdt : s.dt = 0) (hst : s.st = 0) : decrementTimers s = s := by
  obtain ⟨v, i, pc, sp, stack, dt, st, keys, display, mem, fault, rng, free⟩ := s
  obtain rfl : dt = 0 := hdt
  obtain rfl : st = 0 := hst
  rfl

/-- A session that no step has run in came about by another operation, from one that no step had run in. -/
theorem not_stepped_of_call {op : HostOp} {S S' : Session} {r : Reply} (h : Session.call op S = .next (S', r))
    (hS' : S'.stepped = false) : op ≠ .step ∧ S.stepped = false := by
  obtain ⟨bytes, rfl, -, -, rfl⟩ | ⟨rfl, t, -, rfl⟩ | ⟨rfl, rfl⟩ | ⟨k, rfl, rfl⟩ | ⟨k, rfl, rfl⟩ | ⟨rfl, hop⟩ :=
    call_cases h
  · exact ⟨nofun, hS'⟩
  · cases hS'
  · exact ⟨nofun, hS'⟩
  · exact ⟨nofun, hS'⟩
  · exact ⟨nofun, hS'⟩
  · exact ⟨hop, hS'⟩

/-- Everything but memory and KEYS is as constructed, until a step has run. -/
def LaunchFrame (S : Session) : Prop := S.stepped = false → SameBut [.memory, .keys] State.reset S.core

theorem call_launchFrame {op : HostOp} {S S' : Session} {r : Reply} (hS : LaunchFrame S)
    (h : Session.call op S = .next (S', r)) : LaunchFrame S' := fun hS' => by
  obtain ⟨hstep, hstepped⟩ := not_stepped_of_call h hS'
  have hframe := hS hstepped
  by_cases hdec : op = .decrementTimers
  · subst hdec
    cases h
    rwa [decrementTimers_of_zero (hframe .delay (by decide)) (hframe .sound (by decide))]
  · exact (hframe.trans (call_sameBut h hstep hdec)).mono (by simp)

/-- Settles O60: construction meets both, and every host operation keeps both. -/
theorem everyReachedSessionIsSound : Obligations.EveryReachedSessionIsSound := fun _ ⟨_, _, hrun⟩ => by
  have hconstruct : StateInv Session.construct.core ∧ LaunchFrame Session.construct :=
    ⟨resetMeetsInvariant, fun _ => SameBut.refl _ _⟩
  exact run_induction (P := fun S => StateInv S.core ∧ LaunchFrame S)
    (fun op S S' r ⟨hinv, hframe⟩ h => ⟨hostOperationsKeepInvariant op S S' r hinv h, call_launchFrame hframe h⟩)
    hconstruct hrun

end Sys2Proof.Machine
end
